-- ==== Sys2Proof/Word.lean ====
section
/-! DEFINITION. The word types of RSEC-CORE: bytes (field elements and indices), 16-bit counts and
offsets, the 64-bit command word, the 32-bit response word, and the 24-bit shard-store address. -/

namespace Sys2Proof

/-- A byte: a field element (R92), 8 bits. -/
abbrev Byte := BitVec 8

/-- The number of a shard slot, 0..255 (R20). -/
abbrev Slot := BitVec 8

/-- A 16-bit count, length or offset field (R62). -/
abbrev Half := BitVec 16

/-- A command word (R60). -/
abbrev CmdWord := BitVec 64

/-- A response word (R63). -/
abbrev RspWord := BitVec 32

/-- An address of the shard store: slot in bits 23:16, offset in bits 15:0 (R41). -/
abbrev Addr := BitVec 24

/-- A matrix over the field, as the list of its rows (R8). -/
abbrev Mat := List (List Byte)

end Sys2Proof
end

