-- ==== Sys2Proof/Syntax.lean ====
section
/-! DEFINITION. The seventeen commands of RSEC-CORE (R64), one constructor per row of the opcode
table, with their operands at the width the command word gives them (R61, R62). -/

namespace Sys2Proof

/-- The construction of the generator matrix, `CFG.KIND` (R13): 0 = VANDERMONDE, 1 = CAUCHY. -/
inductive Kind where
  | vandermonde
  | cauchy
  deriving DecidableEq, Repr

/-- The operand `mode` of `RECON` (R144): 0 = ALL, every erased slot is requested;
1 = DATA, only the erased data slots are. -/
inductive Mode where
  | all
  | data
  deriving DecidableEq, Repr

/-- A command. -/
inductive Instr where
  /-- `NOP` (R89). -/
  | nop
  /-- `GFADD x, y` (R86). -/
  | gfadd (x y : Byte)
  /-- `GFMUL x, y` (R87). -/
  | gfmul (x y : Byte)
  /-- `GFDIV x, y` (R88). -/
  | gfdiv (x y : Byte)
  /-- `GFINV x` (R90). -/
  | gfinv (x : Byte)
  /-- `CONFIG kind, n, m, len` (R110). -/
  | config (kind : Kind) (n m len : Half)
  /-- `CSRRD sel` (R111). -/
  | csrrd (sel : Byte)
  /-- `GENRD row, col` (R112). -/
  | genrd (row col : Byte)
  /-- `MKDEC` (R113). -/
  | mkdec
  /-- `DECRD row, col` (R114). -/
  | decrd (row col : Byte)
  /-- `SELRD i` (R115). -/
  | selrd (i : Byte)
  /-- `SHWR slot, off, val` (R130). -/
  | shwr (slot : Slot) (off : Half) (val : Byte)
  /-- `SHRD slot, off` (R131). -/
  | shrd (slot : Slot) (off : Half)
  /-- `SHSET slot, len, pres` (R132). -/
  | shset (slot : Slot) (len : Half) (pres : Bool)
  /-- `SHGET slot` (R133). -/
  | shget (slot : Slot)
  /-- `ENCODE cnt` (R140). -/
  | encode (cnt : Half)
  /-- `RECON mode, cnt` (R144). -/
  | recon (mode : Mode) (cnt : Half)
  deriving DecidableEq, Repr

end Sys2Proof
end

