-- ==== Sys2Proof/WellFormed.lean ====
section
/-! DEFINITION. The opcode table (R64) and what is well formed: a command word that matches a row
of the table. An operand value is never a reason for a command to be ill formed (R62, R66), so every
term of `Instr` is well formed: its operands' types hold exactly the values of their fields. -/

namespace Sys2Proof

/-- A row of the opcode table: a word `w` is the row's command when `w &&& mask = pattern`. -/
structure OpcodeRow where
  mnemonic : String
  pattern : CmdWord
  mask : CmdWord
  deriving DecidableEq, Repr

/-- The opcode table (R64). -/
def opcodeTable : List OpcodeRow := [
  ⟨"NOP",    0x0000000000000000, 0xFFFFFFFFFFFFFFFF⟩,
  ⟨"GFADD",  0x0100000000000000, 0xFF0000FFFFFFFFFF⟩,
  ⟨"GFMUL",  0x0200000000000000, 0xFF0000FFFFFFFFFF⟩,
  ⟨"GFDIV",  0x0300000000000000, 0xFF0000FFFFFFFFFF⟩,
  ⟨"GFINV",  0x0400000000000000, 0xFF00FFFFFFFFFFFF⟩,
  ⟨"CONFIG", 0x1000000000000000, 0xFFFE000000000000⟩,
  ⟨"CSRRD",  0x1100000000000000, 0xFF00FFFFFFFFFFFF⟩,
  ⟨"GENRD",  0x1200000000000000, 0xFF0000FFFFFFFFFF⟩,
  ⟨"MKDEC",  0x1300000000000000, 0xFFFFFFFFFFFFFFFF⟩,
  ⟨"DECRD",  0x1400000000000000, 0xFF0000FFFFFFFFFF⟩,
  ⟨"SELRD",  0x1500000000000000, 0xFF00FFFFFFFFFFFF⟩,
  ⟨"SHWR",   0x2000000000000000, 0xFF00000000FFFFFF⟩,
  ⟨"SHRD",   0x2100000000000000, 0xFF000000FFFFFFFF⟩,
  ⟨"SHSET",  0x2200000000000000, 0xFF000000FEFFFFFF⟩,
  ⟨"SHGET",  0x2300000000000000, 0xFF00FFFFFFFFFFFF⟩,
  ⟨"ENCODE", 0x3000000000000000, 0xFFFF0000FFFFFFFF⟩,
  ⟨"RECON",  0x3100000000000000, 0xFFFE0000FFFFFFFF⟩]

/-- The word is the command of this row. -/
def OpcodeRow.matchesWord (row : OpcodeRow) (w : CmdWord) : Bool :=
  w &&& row.mask == row.pattern

/-- The word is a legal command: it matches a row of the opcode table (R65). -/
def wellFormedWord (w : CmdWord) : Bool :=
  opcodeTable.any (·.matchesWord w)

/-- The instruction is well formed. Every operand of every command is legal as an encoding, whatever
its value (R62, R66), so no constructor has a check; each is written out so that a new one must be
judged. -/
def wellFormed (i : Instr) : Bool :=
  match i with
  | .nop => true
  | .gfadd _ _ => true
  | .gfmul _ _ => true
  | .gfdiv _ _ => true
  | .gfinv _ => true
  | .config _ _ _ _ => true
  | .csrrd _ => true
  | .genrd _ _ => true
  | .mkdec => true
  | .decrd _ _ => true
  | .selrd _ => true
  | .shwr _ _ _ => true
  | .shrd _ _ => true
  | .shset _ _ _ => true
  | .shget _ => true
  | .encode _ => true
  | .recon _ _ => true

end Sys2Proof
end

