-- ==== Sys2Proof/Decode.lean ====
section
/-! DEFINITION. Decoding a command word (R60, R61, R66), total on all 2^64 words, and the encoder
written from the same formats. A word that is no command is rejected by name (R65). -/

namespace Sys2Proof

/-- Why a word is no command (R65). Either way the block answers it with `IllegalCommandError`. -/
inductive DecodeError where
  /-- The opcode is none of the seventeen. -/
  | unknownOpcode (op : Byte)
  /-- The opcode is listed and a reserved bit is not 0. -/
  | reservedBitsSet (op : Byte)
  deriving DecidableEq, Repr

/-! ### Fields of the command word (R61) -/

/-- `op` = W[63:56]. -/
def fieldOp (w : CmdWord) : Byte := w.extractLsb' 56 8
/-- `a` = W[55:48], formats A and B. -/
def fieldA (w : CmdWord) : Byte := w.extractLsb' 48 8
/-- `b` = W[47:40], format B. -/
def fieldB (w : CmdWord) : Byte := w.extractLsb' 40 8
/-- `kind` = W[48], format C. -/
def fieldKind (w : CmdWord) : Kind := if w.getLsbD 48 then .cauchy else .vandermonde
/-- `n` = W[47:32], format C. -/
def fieldN (w : CmdWord) : Half := w.extractLsb' 32 16
/-- `m` = W[31:16], format C. -/
def fieldM (w : CmdWord) : Half := w.extractLsb' 16 16
/-- `len` = W[15:0], format C. -/
def fieldLen (w : CmdWord) : Half := w.extractLsb' 0 16
/-- `slot` = W[55:48], formats S and D. -/
def fieldSlot (w : CmdWord) : Slot := w.extractLsb' 48 8
/-- `off` = W[47:32], format S. -/
def fieldOff (w : CmdWord) : Half := w.extractLsb' 32 16
/-- `val` = W[31:24], format S. -/
def fieldVal (w : CmdWord) : Byte := w.extractLsb' 24 8
/-- `len` (descriptor) = W[47:32], format D. -/
def fieldDescLen (w : CmdWord) : Half := w.extractLsb' 32 16
/-- `pres` = W[24], format D. -/
def fieldPres (w : CmdWord) : Bool := w.getLsbD 24
/-- `mode` = W[48], format E. -/
def fieldMode (w : CmdWord) : Mode := if w.getLsbD 48 then .data else .all
/-- `cnt` = W[47:32], format E. -/
def fieldCnt (w : CmdWord) : Half := w.extractLsb' 32 16

/-- The operands of a word, given that its opcode and reserved bits are those of the row: `i` if
the reserved bits are 0, else the rejection (R65, R66). -/
def checkReserved (w pattern mask : CmdWord) (i : Instr) : Except DecodeError Instr :=
  if w &&& mask = pattern then .ok i else .error (.reservedBitsSet (fieldOp w))

/-- The decoder (R66): the row with the word's opcode, then its reserved bits, then its fields. -/
def decode (w : CmdWord) : Except DecodeError Instr :=
  match (fieldOp w).toNat with
  | 0x00 => checkReserved w 0x0000000000000000 0xFFFFFFFFFFFFFFFF .nop
  | 0x01 => checkReserved w 0x0100000000000000 0xFF0000FFFFFFFFFF (.gfadd (fieldA w) (fieldB w))
  | 0x02 => checkReserved w 0x0200000000000000 0xFF0000FFFFFFFFFF (.gfmul (fieldA w) (fieldB w))
  | 0x03 => checkReserved w 0x0300000000000000 0xFF0000FFFFFFFFFF (.gfdiv (fieldA w) (fieldB w))
  | 0x04 => checkReserved w 0x0400000000000000 0xFF00FFFFFFFFFFFF (.gfinv (fieldA w))
  | 0x10 => checkReserved w 0x1000000000000000 0xFFFE000000000000
      (.config (fieldKind w) (fieldN w) (fieldM w) (fieldLen w))
  | 0x11 => checkReserved w 0x1100000000000000 0xFF00FFFFFFFFFFFF (.csrrd (fieldA w))
  | 0x12 => checkReserved w 0x1200000000000000 0xFF0000FFFFFFFFFF (.genrd (fieldA w) (fieldB w))
  | 0x13 => checkReserved w 0x1300000000000000 0xFFFFFFFFFFFFFFFF .mkdec
  | 0x14 => checkReserved w 0x1400000000000000 0xFF0000FFFFFFFFFF (.decrd (fieldA w) (fieldB w))
  | 0x15 => checkReserved w 0x1500000000000000 0xFF00FFFFFFFFFFFF (.selrd (fieldA w))
  | 0x20 => checkReserved w 0x2000000000000000 0xFF00000000FFFFFF
      (.shwr (fieldSlot w) (fieldOff w) (fieldVal w))
  | 0x21 => checkReserved w 0x2100000000000000 0xFF000000FFFFFFFF (.shrd (fieldSlot w) (fieldOff w))
  | 0x22 => checkReserved w 0x2200000000000000 0xFF000000FEFFFFFF
      (.shset (fieldSlot w) (fieldDescLen w) (fieldPres w))
  | 0x23 => checkReserved w 0x2300000000000000 0xFF00FFFFFFFFFFFF (.shget (fieldA w))
  | 0x30 => checkReserved w 0x3000000000000000 0xFFFF0000FFFFFFFF (.encode (fieldCnt w))
  | 0x31 => checkReserved w 0x3100000000000000 0xFFFE0000FFFFFFFF (.recon (fieldMode w) (fieldCnt w))
  | _ => .error (.unknownOpcode (fieldOp w))

/-! ### The encoder, one packing per format (R61) -/

/-- Format A: `op`, `a`, reserved bits 0. -/
def packA (op a : Byte) : CmdWord := op ++ a ++ (0 : BitVec 48)
/-- Format B: `op`, `a`, `b`, reserved bits 0. -/
def packB (op a b : Byte) : CmdWord := op ++ a ++ b ++ (0 : BitVec 40)
/-- Format C: `op`, bit 48 `kind`, `n`, `m`, `len`. -/
def packC (op : Byte) (kind : Kind) (n m len : Half) : CmdWord :=
  op ++ (0 : BitVec 7) ++ BitVec.ofBool (kind == .cauchy) ++ n ++ m ++ len
/-- Format S: `op`, `slot`, `off`, `val`, reserved bits 0. -/
def packS (op : Byte) (slot : Slot) (off : Half) (val : Byte) : CmdWord :=
  op ++ slot ++ off ++ val ++ (0 : BitVec 24)
/-- Format D: `op`, `slot`, `len`, bit 24 `pres`, reserved bits 0. -/
def packD (op : Byte) (slot : Slot) (len : Half) (pres : Bool) : CmdWord :=
  op ++ slot ++ len ++ (0 : BitVec 7) ++ BitVec.ofBool pres ++ (0 : BitVec 24)
/-- Format E: `op`, bit 48 `mode`, `cnt`, reserved bits 0. -/
def packE (op : Byte) (mode : Mode) (cnt : Half) : CmdWord :=
  op ++ (0 : BitVec 7) ++ BitVec.ofBool (mode == .data) ++ cnt ++ (0 : BitVec 32)

/-- The command word of an instruction (R61, R64). -/
def encode (i : Instr) : CmdWord :=
  match i with
  | .nop => 0
  | .gfadd x y => packB 0x01 x y
  | .gfmul x y => packB 0x02 x y
  | .gfdiv x y => packB 0x03 x y
  | .gfinv x => packA 0x04 x
  | .config kind n m len => packC 0x10 kind n m len
  | .csrrd sel => packA 0x11 sel
  | .genrd row col => packB 0x12 row col
  | .mkdec => packA 0x13 0
  | .decrd row col => packB 0x14 row col
  | .selrd i => packA 0x15 i
  | .shwr slot off val => packS 0x20 slot off val
  | .shrd slot off => packS 0x21 slot off 0
  | .shset slot len pres => packD 0x22 slot len pres
  | .shget slot => packA 0x23 slot
  | .encode cnt => packE 0x30 .all cnt
  | .recon mode cnt => packE 0x31 mode cnt

/-- What the decoder reads from an instruction whose bits are `w`, numbered as the opcode table
numbers them: one 64-bit word, so bit k of `w` is bit k of the command word. Bits at and above
`nbits` are 0. `none` where the decoder refuses, and where `w` has more bits than the instruction. -/
def decodeTableWord (nbits w : Nat) : Option Instr :=
  if nbits ≤ 64 ∧ w < 2 ^ nbits then
    match decode (BitVec.ofNat 64 w) with
    | .ok i => some i
    | .error _ => none
  else none

end Sys2Proof
end

