-- ==== Sys2Proof/Machine/Cells.lean ====
section
/-! DEFINITION. Sparse storage in one canonical form: a list of (key, value) pairs with rising keys.
The shard store (R20) and the descriptors (R21, R22) are kept in it. -/

namespace Sys2Proof.Machine

/-- What is listed at a key; `none` where nothing is. -/
def cellsGet {α : Type} (k : Nat) : List (Nat × α) → Option α
  | [] => none
  | c :: cs => if k = c.1 then some c.2 else cellsGet k cs

/-- List a value at a key, in the place its key gives it, over what was listed there. -/
def cellsPut {α : Type} (k : Nat) (v : α) : List (Nat × α) → List (Nat × α)
  | [] => [(k, v)]
  | c :: cs =>
    if k < c.1 then (k, v) :: c :: cs
    else if k = c.1 then (k, v) :: cs
    else c :: cellsPut k v cs

/-- List nothing at a key. -/
def cellsDrop {α : Type} (k : Nat) : List (Nat × α) → List (Nat × α)
  | [] => []
  | c :: cs => if k = c.1 then cellsDrop k cs else c :: cellsDrop k cs

/-- The keys rise strictly. -/
abbrev cellsRising {α : Type} (cs : List (Nat × α)) : Prop :=
  cs.Pairwise (fun c d => c.1 < d.1)

/-- The canonical form of the shard store: addresses strictly rising, each a 24-bit address (R41).
An unlisted address has no byte of its own (R46), so no entry can equal what it reads as. -/
abbrev Memory.wf (mem : List Host.Cell) : Prop :=
  cellsRising mem ∧ ∀ c ∈ mem, c.1 < 2 ^ 24

end Sys2Proof.Machine
end

