-- ==== Sys2Proof/Config.lean ====
section
/-! DEFINITION. What the implementation fixes (R7) and the free values: the values the spec leaves
unspecified. A free value has no body, so nothing can be proved of which value it is. -/

namespace Sys2Proof.Config

/-- The low byte of the field polynomial 0x11D (R92, D2): what replaces x^8 in a reduction. -/
def polyLow : Byte := 0x1D

/-- The generator element of the logarithm and exponent tables (R81, D3). -/
def alpha : Byte := 0x02

/-- The limit of N + M: the size of the field (R6). -/
def fieldSize : Nat := 256

/-- FREE VALUE (U1, R46): what a byte of the shard store that nothing has written since reset
number `resets` reads as. It is a fresh draw for every byte and every reset, and it is fixed until
the byte is written. Log entry 1. -/
opaque unwrittenByte (resets addr : Nat) : Byte

/-- FREE VALUE (U2, R91): the data output of `gf28_inverse_lut` for the input 0x00. Log entry 2. -/
opaque inverseOfZero : Byte

/-- FREE VALUE (U3, R17, R18): what an entry that a matrix or a selection list does not hold is.
No command can read one. Log entry 3. -/
opaque unspecifiedEntry (row col : Nat) : Byte

end Sys2Proof.Config
end

