-- ==== Sys2Proof/Machine/State.lean ====
section
/-! DEFINITION. The state of one RSEC-CORE instance (R12) as plain data, the host's two channels, and
the state after reset (R25, R190). -/

namespace Sys2Proof.Machine

/-- The eight kinds of error a command can end with (R160). An error is an answer to the host, not a
stop of the machine (R166): it is written into the response and into `ERRLOG`. -/
inductive ErrorKind where
  /-- Code 1: wrong shard count or mismatched shard lengths (`ENCODE`, `RECON`). -/
  | shape
  /-- Code 2: division by zero or inversion of zero (`GFDIV`, `GFINV`). -/
  | domain
  /-- Code 3: a selected submatrix is singular (`MKDEC`, `RECON`; unreachable, R105). -/
  | singularMatrix
  /-- Code 4: fewer than N shards present (`MKDEC`, `RECON`). -/
  | insufficientShards
  /-- Code 5: illegal coding parameters (`CONFIG`). -/
  | parameter
  /-- Code 6: undefined opcode or nonzero reserved bit (any word). -/
  | illegalCommand
  /-- Code 7: no engine instance, or no decoding matrix, where one is needed. -/
  | sequence
  /-- Code 8: an index outside its matrix, list or register set. -/
  | range
  deriving DecidableEq, Repr

/-- The reasons a step could stop with a fault. There are none: every word in every state has a
defined outcome (R193), errors do not stop the block (R166), and the one value the spec leaves
unspecified, a byte nothing has written, is a free value (log entry 1). Safe: no step is excused. -/
inductive Fault where
  deriving DecidableEq, Repr

/-- The reasons a step could be refused. -/
inductive Refusal where
  /-- Raised by `exec` for an instruction without a meaning, by its mnemonic. Safe. No arm of `exec`
  raises it: every instruction has its meaning. -/
  | notModelled (mnemonic : String)
  deriving DecidableEq, Repr

/-- The configuration registers (R13). -/
structure Cfg where
  /-- `CFG.VALID`: an engine instance exists. -/
  valid : Bool
  /-- `CFG.KIND`: the construction of the generator matrix. -/
  kind : Kind
  /-- `CFG.N`: the data shard count, 9 bits. -/
  n : BitVec 9
  /-- `CFG.M`: the parity shard count, 9 bits. -/
  m : BitVec 9
  /-- `CFG.L`: the shard length in bytes, 16 bits. -/
  l : Half
  deriving DecidableEq, Repr

/-- The descriptor of a slot: `PRES[s]` (R21) and `SLEN[s]` (R22). -/
structure Desc where
  /-- `PRES[s]`: 1 = present, 0 = erased. -/
  pres : Bool
  /-- `SLEN[s]`: the declared length in bytes. -/
  len : Half
  deriving DecidableEq, Repr

/-- What the host presents to the block, one event at a time (R190, R192). -/
inductive HostEvent where
  /-- A command word on the command channel. -/
  | command (w : CmdWord)
  /-- The reset input, asserted and released between commands (R190, U19). -/
  | reset
  deriving DecidableEq, Repr

/-- The state: the spec's inventory (R12), then the model's own fields for the host's channels. -/
structure State where
  /-- `CFG`: `VALID`, `KIND`, `N`, `M`, `L` (R13). -/
  cfg : Cfg
  /-- `GEN`: the generator matrix, (N+M) rows of N bytes (R17). -/
  gen : Mat
  /-- `DECV`: the decoding matrix is valid (R15). -/
  decv : Bool
  /-- `DEC`: the decoding matrix, N rows of N bytes (R18). -/
  dec : Mat
  /-- `SEL`: the selected shard indices, N entries (R18). -/
  sel : List Slot
  /-- `ERRLOG`: the sticky log of error kinds (R16). -/
  errlog : BitVec 9
  /-- `SH`: the shard store (R20), the bytes written since reset, addresses rising. -/
  mem : List Host.Cell
  /-- `PRES` and `SLEN` (R21, R22): the descriptors that differ from their reset value, slots rising. -/
  desc : List (Nat × Desc)
  /-- MODEL'S OWN: what the host has still to present, first first (R24, R192; log entry 4). -/
  cmdIn : List HostEvent
  /-- MODEL'S OWN: the responses given to the host, oldest first (R24, R192; log entry 4). -/
  rspOut : List RspWord
  /-- MODEL'S OWN: the number of resets, the index of the free values of unwritten bytes
  (U1; log entry 1). -/
  resets : Nat
  deriving DecidableEq, Repr

/-- The machine right after reset (R25, R190). `GEN`, `DEC` and `SEL` list nothing: their content is
unspecified (log entry 3). -/
def State.reset : State where
  cfg := ⟨false, .vandermonde, 0, 0, 0⟩
  gen := []
  decv := false
  dec := []
  sel := []
  errlog := 0
  mem := []
  desc := []
  cmdIn := []
  rspOut := []
  resets := 0

end Sys2Proof.Machine
end

