-- ==== Sys2Proof/Machine/Operands.lean ====
section
/-! DEFINITION. Operand and result forms: indices of slots and offsets, the address of a shard byte
(R41), zero extension into `VAL`, and the response word (R63). -/

namespace Sys2Proof.Machine

/-- The slot with an index (indices are natural numbers below N + M, at most 256; R8, R20). -/
def slotOf (i : Nat) : Slot := BitVec.ofNat 8 i

/-- The offset with an index (indices are natural numbers below L; R8, R20). -/
def offOf (k : Nat) : Half := BitVec.ofNat 16 k

/-- The 24-bit address of a shard byte: slot in bits 23:16, offset in bits 15:0 (R41). -/
def addrOf (slot : Slot) (off : Half) : Addr := slot ++ off

/-- `zext_16`: a result of at most 16 bits as `VAL` (R9, R63). -/
def zext16 {w : Nat} (v : BitVec w) : Half := v.setWidth 16

/-- The response word (R63): `ERR` in bits 31:24, zeros in 23:17, `P` in bit 16, `VAL` in 15:0. -/
def responseWord (err : Byte) (p : Bool) (val : Half) : RspWord :=
  err ++ (0 : BitVec 7) ++ BitVec.ofBool p ++ val

/-- `ERR` of a response: R[31:24] (R63). -/
def rspErr (r : RspWord) : Byte := r.extractLsb' 24 8

/-- The reserved bits of a response: R[23:17] (R63). -/
def rspReserved (r : RspWord) : BitVec 7 := r.extractLsb' 17 7

/-- `P` of a response: R[16] (R63). -/
def rspP (r : RspWord) : Bool := r.getLsbD 16

/-- `VAL` of a response: R[15:0] (R63). -/
def rspVal (r : RspWord) : Half := r.extractLsb' 0 16

end Sys2Proof.Machine
end

