-- ==== Sys2Proof/Machine/Flags.lean ====
section
/-! DEFINITION. The flags: `FLAGS` as `CSRRD` reads it (R14), the numeric error codes (R160) and the
bit of `ERRLOG` that an error sets (R16). -/

namespace Sys2Proof.Machine

/-- `FLAGS` (R14): bit 0 = `CFG.VALID`, bit 1 = `CFG.KIND`, bit 2 = `DECV`, bits 15:3 = 0. -/
def flagsWord (s : State) : Half :=
  (0 : BitVec 13) ++ BitVec.ofBool s.decv ++ BitVec.ofBool (s.cfg.kind == .cauchy) ++
    BitVec.ofBool s.cfg.valid

/-- The code of an error kind (R160). -/
def errorCode (e : ErrorKind) : Byte :=
  match e with
  | .shape => 1
  | .domain => 2
  | .singularMatrix => 3
  | .insufficientShards => 4
  | .parameter => 5
  | .illegalCommand => 6
  | .sequence => 7
  | .range => 8

/-- `ERRLOG` after an error: the bit whose number is the error's code is set, no bit is cleared
(R16, R163). -/
def logError (log : BitVec 9) (e : ErrorKind) : BitVec 9 :=
  log ||| (1 <<< (errorCode e).toNat)

end Sys2Proof.Machine
end

