-- ==== Sys2Proof/Machine/Gf.lean ====
section
/-! DEFINITION. Field arithmetic: the units `gf28_adder`, `gf28_multiplier` and `gf28_inverse_lut`
(R80 to R85, R91, R92), the constant tables (R19, R81, R84), and powers (R101). -/

namespace Sys2Proof.Machine

/-- The field sum of the terms below `n`; 0 for `n = 0` (R8). -/
def xorSum : Nat → (Nat → Byte) → Byte
  | 0, _ => 0
  | n + 1, t => xorSum n t ^^^ t n

/-! ### `gf28_adder` and `gf28_multiplier` -/

/-- Field addition (R80). -/
def gfAdd (a b : Byte) : Byte := a ^^^ b

/-- Multiplication by x, reduced by the field polynomial (R82). -/
def xtime (a : Byte) : Byte :=
  if a.getLsbD 7 then (a <<< 1) ^^^ Config.polyLow else a <<< 1

/-- `xtime` applied `i` times (R82). -/
def xtimes : Nat → Byte → Byte
  | 0, a => a
  | i + 1, a => xtime (xtimes i a)

/-- Field multiplication, the normative bit-level definition (R82): the sum of `xtime^i(a)` over the
bits i of `b` that are 1. -/
def gfMul (a b : Byte) : Byte :=
  xorSum 8 (fun i => if b.getLsbD i then xtimes i a else 0)

/-! ### The constant tables (R19, R81, R84), sixteen entries a row as the spec prints them -/

/-- A row of a table whose entries all exist. -/
def romRow (l : List Byte) : List (Option Byte) := l.map some

/-- `EXP[0..254]` (R81): `EXP[i] = ALPHA^i`. There is no entry 255. -/
def expTable : List (List (Option Byte)) := [
  romRow [0x01, 0x02, 0x04, 0x08, 0x10, 0x20, 0x40, 0x80, 0x1D, 0x3A, 0x74, 0xE8, 0xCD, 0x87, 0x13, 0x26],
  romRow [0x4C, 0x98, 0x2D, 0x5A, 0xB4, 0x75, 0xEA, 0xC9, 0x8F, 0x03, 0x06, 0x0C, 0x18, 0x30, 0x60, 0xC0],
  romRow [0x9D, 0x27, 0x4E, 0x9C, 0x25, 0x4A, 0x94, 0x35, 0x6A, 0xD4, 0xB5, 0x77, 0xEE, 0xC1, 0x9F, 0x23],
  romRow [0x46, 0x8C, 0x05, 0x0A, 0x14, 0x28, 0x50, 0xA0, 0x5D, 0xBA, 0x69, 0xD2, 0xB9, 0x6F, 0xDE, 0xA1],
  romRow [0x5F, 0xBE, 0x61, 0xC2, 0x99, 0x2F, 0x5E, 0xBC, 0x65, 0xCA, 0x89, 0x0F, 0x1E, 0x3C, 0x78, 0xF0],
  romRow [0xFD, 0xE7, 0xD3, 0xBB, 0x6B, 0xD6, 0xB1, 0x7F, 0xFE, 0xE1, 0xDF, 0xA3, 0x5B, 0xB6, 0x71, 0xE2],
  romRow [0xD9, 0xAF, 0x43, 0x86, 0x11, 0x22, 0x44, 0x88, 0x0D, 0x1A, 0x34, 0x68, 0xD0, 0xBD, 0x67, 0xCE],
  romRow [0x81, 0x1F, 0x3E, 0x7C, 0xF8, 0xED, 0xC7, 0x93, 0x3B, 0x76, 0xEC, 0xC5, 0x97, 0x33, 0x66, 0xCC],
  romRow [0x85, 0x17, 0x2E, 0x5C, 0xB8, 0x6D, 0xDA, 0xA9, 0x4F, 0x9E, 0x21, 0x42, 0x84, 0x15, 0x2A, 0x54],
  romRow [0xA8, 0x4D, 0x9A, 0x29, 0x52, 0xA4, 0x55, 0xAA, 0x49, 0x92, 0x39, 0x72, 0xE4, 0xD5, 0xB7, 0x73],
  romRow [0xE6, 0xD1, 0xBF, 0x63, 0xC6, 0x91, 0x3F, 0x7E, 0xFC, 0xE5, 0xD7, 0xB3, 0x7B, 0xF6, 0xF1, 0xFF],
  romRow [0xE3, 0xDB, 0xAB, 0x4B, 0x96, 0x31, 0x62, 0xC4, 0x95, 0x37, 0x6E, 0xDC, 0xA5, 0x57, 0xAE, 0x41],
  romRow [0x82, 0x19, 0x32, 0x64, 0xC8, 0x8D, 0x07, 0x0E, 0x1C, 0x38, 0x70, 0xE0, 0xDD, 0xA7, 0x53, 0xA6],
  romRow [0x51, 0xA2, 0x59, 0xB2, 0x79, 0xF2, 0xF9, 0xEF, 0xC3, 0x9B, 0x2B, 0x56, 0xAC, 0x45, 0x8A, 0x09],
  romRow [0x12, 0x24, 0x48, 0x90, 0x3D, 0x7A, 0xF4, 0xF5, 0xF7, 0xF3, 0xFB, 0xEB, 0xCB, 0x8B, 0x0B, 0x16],
  romRow [0x2C, 0x58, 0xB0, 0x7D, 0xFA, 0xE9, 0xCF, 0x83, 0x1B, 0x36, 0x6C, 0xD8, 0xAD, 0x47, 0x8E]]

/-- `LOG[1..255]` (R81): `LOG[v] = i` exactly when `EXP[i] = v`. There is no entry 0. -/
def logTable : List (List (Option Byte)) := [
  none :: romRow [0x00, 0x01, 0x19, 0x02, 0x32, 0x1A, 0xC6, 0x03, 0xDF, 0x33, 0xEE, 0x1B, 0x68, 0xC7, 0x4B],
  romRow [0x04, 0x64, 0xE0, 0x0E, 0x34, 0x8D, 0xEF, 0x81, 0x1C, 0xC1, 0x69, 0xF8, 0xC8, 0x08, 0x4C, 0x71],
  romRow [0x05, 0x8A, 0x65, 0x2F, 0xE1, 0x24, 0x0F, 0x21, 0x35, 0x93, 0x8E, 0xDA, 0xF0, 0x12, 0x82, 0x45],
  romRow [0x1D, 0xB5, 0xC2, 0x7D, 0x6A, 0x27, 0xF9, 0xB9, 0xC9, 0x9A, 0x09, 0x78, 0x4D, 0xE4, 0x72, 0xA6],
  romRow [0x06, 0xBF, 0x8B, 0x62, 0x66, 0xDD, 0x30, 0xFD, 0xE2, 0x98, 0x25, 0xB3, 0x10, 0x91, 0x22, 0x88],
  romRow [0x36, 0xD0, 0x94, 0xCE, 0x8F, 0x96, 0xDB, 0xBD, 0xF1, 0xD2, 0x13, 0x5C, 0x83, 0x38, 0x46, 0x40],
  romRow [0x1E, 0x42, 0xB6, 0xA3, 0xC3, 0x48, 0x7E, 0x6E, 0x6B, 0x3A, 0x28, 0x54, 0xFA, 0x85, 0xBA, 0x3D],
  romRow [0xCA, 0x5E, 0x9B, 0x9F, 0x0A, 0x15, 0x79, 0x2B, 0x4E, 0xD4, 0xE5, 0xAC, 0x73, 0xF3, 0xA7, 0x57],
  romRow [0x07, 0x70, 0xC0, 0xF7, 0x8C, 0x80, 0x63, 0x0D, 0x67, 0x4A, 0xDE, 0xED, 0x31, 0xC5, 0xFE, 0x18],
  romRow [0xE3, 0xA5, 0x99, 0x77, 0x26, 0xB8, 0xB4, 0x7C, 0x11, 0x44, 0x92, 0xD9, 0x23, 0x20, 0x89, 0x2E],
  romRow [0x37, 0x3F, 0xD1, 0x5B, 0x95, 0xBC, 0xCF, 0xCD, 0x90, 0x87, 0x97, 0xB2, 0xDC, 0xFC, 0xBE, 0x61],
  romRow [0xF2, 0x56, 0xD3, 0xAB, 0x14, 0x2A, 0x5D, 0x9E, 0x84, 0x3C, 0x39, 0x53, 0x47, 0x6D, 0x41, 0xA2],
  romRow [0x1F, 0x2D, 0x43, 0xD8, 0xB7, 0x7B, 0xA4, 0x76, 0xC4, 0x17, 0x49, 0xEC, 0x7F, 0x0C, 0x6F, 0xF6],
  romRow [0x6C, 0xA1, 0x3B, 0x52, 0x29, 0x9D, 0x55, 0xAA, 0xFB, 0x60, 0x86, 0xB1, 0xBB, 0xCC, 0x3E, 0x5A],
  romRow [0xCB, 0x59, 0x5F, 0xB0, 0x9C, 0xA9, 0xA0, 0x51, 0x0B, 0xF5, 0x16, 0xEB, 0x7A, 0x75, 0x2C, 0xD7],
  romRow [0x4F, 0xAE, 0xD5, 0xE9, 0xE6, 0xE7, 0xAD, 0xE8, 0x74, 0xD6, 0xF4, 0xEA, 0xA8, 0x50, 0x58, 0xAF]]

/-- `INV[1..255]` (R84): the table of `gf28_inverse_lut`. Entry 0 has no content. -/
def invTable : List (List (Option Byte)) := [
  none :: romRow [0x01, 0x8E, 0xF4, 0x47, 0xA7, 0x7A, 0xBA, 0xAD, 0x9D, 0xDD, 0x98, 0x3D, 0xAA, 0x5D, 0x96],
  romRow [0xD8, 0x72, 0xC0, 0x58, 0xE0, 0x3E, 0x4C, 0x66, 0x90, 0xDE, 0x55, 0x80, 0xA0, 0x83, 0x4B, 0x2A],
  romRow [0x6C, 0xED, 0x39, 0x51, 0x60, 0x56, 0x2C, 0x8A, 0x70, 0xD0, 0x1F, 0x4A, 0x26, 0x8B, 0x33, 0x6E],
  romRow [0x48, 0x89, 0x6F, 0x2E, 0xA4, 0xC3, 0x40, 0x5E, 0x50, 0x22, 0xCF, 0xA9, 0xAB, 0x0C, 0x15, 0xE1],
  romRow [0x36, 0x5F, 0xF8, 0xD5, 0x92, 0x4E, 0xA6, 0x04, 0x30, 0x88, 0x2B, 0x1E, 0x16, 0x67, 0x45, 0x93],
  romRow [0x38, 0x23, 0x68, 0x8C, 0x81, 0x1A, 0x25, 0x61, 0x13, 0xC1, 0xCB, 0x63, 0x97, 0x0E, 0x37, 0x41],
  romRow [0x24, 0x57, 0xCA, 0x5B, 0xB9, 0xC4, 0x17, 0x4D, 0x52, 0x8D, 0xEF, 0xB3, 0x20, 0xEC, 0x2F, 0x32],
  romRow [0x28, 0xD1, 0x11, 0xD9, 0xE9, 0xFB, 0xDA, 0x79, 0xDB, 0x77, 0x06, 0xBB, 0x84, 0xCD, 0xFE, 0xFC],
  romRow [0x1B, 0x54, 0xA1, 0x1D, 0x7C, 0xCC, 0xE4, 0xB0, 0x49, 0x31, 0x27, 0x2D, 0x53, 0x69, 0x02, 0xF5],
  romRow [0x18, 0xDF, 0x44, 0x4F, 0x9B, 0xBC, 0x0F, 0x5C, 0x0B, 0xDC, 0xBD, 0x94, 0xAC, 0x09, 0xC7, 0xA2],
  romRow [0x1C, 0x82, 0x9F, 0xC6, 0x34, 0xC2, 0x46, 0x05, 0xCE, 0x3B, 0x0D, 0x3C, 0x9C, 0x08, 0xBE, 0xB7],
  romRow [0x87, 0xE5, 0xEE, 0x6B, 0xEB, 0xF2, 0xBF, 0xAF, 0xC5, 0x64, 0x07, 0x7B, 0x95, 0x9A, 0xAE, 0xB6],
  romRow [0x12, 0x59, 0xA5, 0x35, 0x65, 0xB8, 0xA3, 0x9E, 0xD2, 0xF7, 0x62, 0x5A, 0x85, 0x7D, 0xA8, 0x3A],
  romRow [0x29, 0x71, 0xC8, 0xF6, 0xF9, 0x43, 0xD7, 0xD6, 0x10, 0x73, 0x76, 0x78, 0x99, 0x0A, 0x19, 0x91],
  romRow [0x14, 0x3F, 0xE6, 0xF0, 0x86, 0xB1, 0xE2, 0xF1, 0xFA, 0x74, 0xF3, 0xB4, 0x6D, 0x21, 0xB2, 0x6A],
  romRow [0xE3, 0xE7, 0xB5, 0xEA, 0x03, 0x8F, 0xD3, 0xC9, 0x42, 0xD4, 0xE8, 0x75, 0x7F, 0xFF, 0x7E, 0xFD]]

/-- Entry `i` of a table; `none` where the table has no content. -/
def romRead (rom : List (List (Option Byte))) (i : Nat) : Option Byte :=
  match rom[i / 16]? with
  | none => none
  | some row => (row[i % 16]?).join

/-! ### `gf28_inverse_lut` -/

/-- The outputs of `gf28_inverse_lut` (R91). -/
structure InverseOut where
  /-- The inverse; unspecified when `domainErr` is set. -/
  q : Byte
  /-- The zero detector: the input is 0. -/
  domainErr : Bool
  deriving DecidableEq, Repr

/-- `gf28_inverse_lut` (R84, R91): the table `INV` and a zero detector. For the input 0 the data output
is a free value (U2). -/
def inverseLut (a : Byte) : InverseOut where
  q := (romRead invTable a.toNat).getD Config.inverseOfZero
  domainErr := a == 0

/-- `inverse(a)`: `none` is the `DomainError` of `inverse(0)` (R84). -/
def gfInv (a : Byte) : Option Byte :=
  if (inverseLut a).domainErr then none else some (inverseLut a).q

/-- `divide(a, b)`: inverse, then multiply; `none` is the `DomainError` of `b = 0` (R85). -/
def gfDiv (a b : Byte) : Option Byte :=
  (gfInv b).map (gfMul a)

/-! ### Powers (R8, R101) -/

/-- `pow(x, e)`: x multiplied by itself e times; 1 for `e = 0`, also for `x = 0` (R8, R101). -/
def gfPow (x : Byte) : Nat → Byte
  | 0 => 1
  | e + 1 => gfMul (gfPow x e) x

/-! ### The same functions by RSEC's logarithm and exponent tables (R82, R84, R101) -/

/-- `EXP[(LOG[a] + LOG[b]) mod 255]`, or 0 when an operand is 0 (R82). -/
def gfMulByTables (a b : Byte) : Option Byte :=
  if a = 0 ∨ b = 0 then some 0
  else
    match romRead logTable a.toNat, romRead logTable b.toNat with
    | some la, some lb => romRead expTable ((la.toNat + lb.toNat) % 255)
    | _, _ => none

/-- `EXP[(255 - LOG[a]) mod 255]` for `a` not 0 (R84). -/
def gfInvByTables (a : Byte) : Option Byte :=
  match romRead logTable a.toNat with
  | some la => romRead expTable ((255 - la.toNat) % 255)
  | none => none

/-- `EXP[(LOG[x] * e) mod 255]` for `x` not 0 and `e` at least 1, with the two special cases of R101. -/
def gfPowByTables (x : Byte) (e : Nat) : Option Byte :=
  if e = 0 then some 1
  else if x = 0 then some 0
  else
    match romRead logTable x.toNat with
    | some lx => romRead expTable ((lx.toNat * e) % 255)
    | none => none

end Sys2Proof.Machine
end

