-- ==== Sys2Proof/Machine/Matrices.lean ====
section
/-! DEFINITION. The matrix engine's units as functions: `systematic_generator_matrix` (R102 to R104),
`matrix_inversion_engine` (R106) and `vandermonde_decoder_matrix` (R107). -/

namespace Sys2Proof.Machine

/-! ### Matrices (R8) -/

/-- Row `i` of a matrix. -/
def matRow (A : Mat) (i : Nat) : List Byte := (A[i]?).getD []

/-- `A[i][j]`. An entry the matrix does not hold is a free value (U3); the rules never use one. -/
def entry (A : Mat) (i j : Nat) : Byte := ((matRow A i)[j]?).getD (Config.unspecifiedEntry i j)

/-- Entry `i` of a selection list. An entry the list does not hold is a free value (U3). -/
def selEntry (sel : List Slot) (i : Nat) : Slot := (sel[i]?).getD (Config.unspecifiedEntry 0 i)

/-- The `r` x `c` matrix with the entries `f i j`. -/
def buildMat (r c : Nat) (f : Nat → Nat → Byte) : Mat :=
  (List.range r).map (fun i => (List.range c).map (f i))

/-- `I_k` (R8). -/
def identityMat (k : Nat) : Mat := buildMat k k (fun i j => if i = j then 1 else 0)

/-- The product of an `r` x `n` and an `n` x `c` matrix (R8). -/
def matMul (r n c : Nat) (A B : Mat) : Mat :=
  buildMat r c (fun i j => xorSum n (fun t => gfMul (entry A i t) (entry B t j)))

/-! ### `matrix_inversion_engine` (R106) -/

/-- The scratch matrix: `A` beside `I_k`, k x 2k (R106). -/
def augment (k : Nat) (A : Mat) : Mat :=
  buildMat k (2 * k) (fun i j => if j < k then entry A i j else if i = j - k then 1 else 0)

/-- The pivot row of column `c`: the smallest row index from `c` on whose entry is not 0
(R106, D8). -/
def findPivot (k c : Nat) (W : Mat) : Option Nat :=
  (List.range' c (k - c)).find? (fun p => entry W p c != 0)

/-- Rows `p` and `c` swapped. -/
def swapRows (p c : Nat) (W : Mat) : Mat :=
  (W.set p (matRow W c)).set c (matRow W p)

/-- A row multiplied by `x`. -/
def scaleRow (x : Byte) (row : List Byte) : List Byte := row.map (gfMul x)

/-- `row ^ (f (*) src)`, entry by entry. -/
def addScaled (f : Byte) (src row : List Byte) : List Byte :=
  List.zipWith (fun a b => gfAdd a (gfMul f b)) row src

/-- Every row but row `c` has its entry in column `c` cleared by row `c`, whose entry there is 1. -/
def clearColumn (c : Nat) (W : Mat) : Mat :=
  W.mapIdx (fun r row => if r = c ∨ entry W r c = 0 then row else addScaled (entry W r c) (matRow W c) row)

/-- The turn of column `c` (R106): swap the pivot up, scale it to 1, clear the column. `none` when no
row from `c` on has a nonzero entry in the column. -/
def eliminate (k c : Nat) (W : Mat) : Option Mat :=
  match findPivot k c W with
  | none => none
  | some p =>
    let W' := swapRows p c W
    some (clearColumn c (W'.set c (scaleRow (inverseLut (entry W' c c)).q (matRow W' c))))

/-- The turns of the columns below `c`, in order. -/
def eliminateUpTo (k : Nat) : Nat → Mat → Option Mat
  | 0, W => some W
  | c + 1, W =>
    match eliminateUpTo k c W with
    | none => none
    | some W' => eliminate k c W'

/-- The right half of the scratch matrix. -/
def rightHalf (k : Nat) (W : Mat) : Mat := buildMat k k (fun i j => entry W i (k + j))

/-- `Invert(k, A)` (R106): Gauss-Jordan elimination; `none` is `SingularMatrixError`. -/
def invert (k : Nat) (A : Mat) : Option Mat :=
  match eliminateUpTo k k (augment k A) with
  | none => none
  | some W => some (rightHalf k W)

/-! ### `systematic_generator_matrix` (R102 to R104) -/

/-- `Vand(rows, cols)`: row r is the powers 0..cols-1 of the field element with byte value r
(R102). -/
def vand (rows cols : Nat) : Mat := buildMat rows cols (fun r c => gfPow (BitVec.ofNat 8 r) c)

/-- `Cau(N, M)`: `C[i][j] = inv((N + i) ^ j)` (R103). -/
def cauchyBlock (n m : Nat) : Mat :=
  buildMat m n (fun i j => (inverseLut (BitVec.ofNat 8 (n + i) ^^^ BitVec.ofNat 8 j)).q)

/-- `Gen(KIND, N, M)` (R104). The inversion of the Vandermonde square never fails (R102, R105); were it
to fail, no entry of the product would be specified (log entry 5). -/
def generator (kind : Kind) (n m : Nat) : Mat :=
  match kind with
  | .vandermonde =>
    match invert n ((vand (n + m) n).take n) with
    | some T => matMul (n + m) n n (vand (n + m) n) T
    | none => []
  | .cauchy => identityMat n ++ cauchyBlock n m

/-! ### `vandermonde_decoder_matrix` (R107) -/

/-- `P`: the ascending list of the present slots below N + M (R107). -/
def presentSlots (total : Nat) (pres : Slot → Bool) : List Slot :=
  ((List.range total).map slotOf).filter pres

/-- `Sub`: the selected rows of the generator matrix (R107). -/
def selectedRows (n : Nat) (gen : Mat) (sel : List Slot) : Mat :=
  buildMat n n (fun i j => entry gen (selEntry sel i).toNat j)

/-- `DecMat(PRES)` (R107): the first N present slots, and the inverse of their rows of `GEN`. -/
def decMat (n m : Nat) (gen : Mat) (pres : Slot → Bool) : Except ErrorKind (List Slot × Mat) :=
  let present := presentSlots (n + m) pres
  if present.length < n then .error .insufficientShards
  else
    let sel := present.take n
    match invert n (selectedRows n gen sel) with
    | none => .error .singularMatrix
    | some dec => .ok (sel, dec)

end Sys2Proof.Machine
end

