-- ==== Sys2Proof/Machine/Ops.lean ====
section
/-! DEFINITION. The named operations over the state: the shard store (R41), the descriptors, the
control and status registers (R14), answering a command with a result (R9, R63) or with an error
(R163), the multiply-accumulate core (R142), and the host's channels (R190, R192). -/

namespace Sys2Proof.Machine

/-- The outcome of a command. -/
abbrev Result := Host.Outcome State Fault Refusal

/-! ### The coding parameters as natural numbers (R8) -/

/-- `N`. -/
def numData (s : State) : Nat := s.cfg.n.toNat
/-- `M`. -/
def numParity (s : State) : Nat := s.cfg.m.toNat
/-- `L`. -/
def shardLen (s : State) : Nat := s.cfg.l.toNat

/-! ### The shard store (R20, R41, R46) -/

/-- `MemRead(addr, 1)`: a byte that nothing has written since reset is a free value (U1). -/
def memRead (s : State) (a : Addr) : Byte :=
  (cellsGet a.toNat s.mem).getD (Config.unwrittenByte s.resets a.toNat)

/-- `Sh(slot, off)` (R9). -/
def readShard (s : State) (slot : Slot) (off : Half) : Byte := memRead s (addrOf slot off)

/-- A list of one-byte writes, first to last. -/
def memWrites (mem : List Host.Cell) (ws : List (Addr × Byte)) : List Host.Cell :=
  ws.foldl (fun m w => cellsPut w.1.toNat w.2 m) mem

/-- `MemWrite(addr, 1, v)`. -/
def memWrite (s : State) (a : Addr) (v : Byte) : State :=
  { s with mem := cellsPut a.toNat v s.mem }

/-- The writes that give byte k of each of these slots the value `f slot k`, for all k < len. -/
def shardWrites (slots : List Nat) (len : Nat) (f : Nat → Nat → Byte) : List (Addr × Byte) :=
  slots.flatMap (fun p => (List.range len).map (fun k => (addrOf (slotOf p) (offOf k), f p k)))

/-- For all of these slots and all k < L: `Sh(slot, k) <- f slot k`, every value taken beforehand
(R141, R145, R146). -/
def storeShards (s : State) (slots : List Nat) (f : Nat → Nat → Byte) : State :=
  { s with mem := memWrites s.mem (shardWrites slots (shardLen s) f) }

/-! ### The descriptors (R21, R22) -/

/-- The descriptor of every slot after reset: erased, length 0 (R25). -/
def descReset : Desc := ⟨false, 0⟩

/-- The descriptor of a slot; an unlisted slot has its reset value. -/
def descOf (descs : List (Nat × Desc)) (slot : Slot) : Desc :=
  (cellsGet slot.toNat descs).getD descReset

/-- A descriptor written, in the canonical form: the reset value is not listed. -/
def putDesc (descs : List (Nat × Desc)) (slot : Slot) (d : Desc) : List (Nat × Desc) :=
  if d = descReset then cellsDrop slot.toNat descs else cellsPut slot.toNat d descs

/-- The canonical form of the descriptors: slots strictly rising, each below 256, none listed with its
reset value. -/
abbrev Descs.wf (descs : List (Nat × Desc)) : Prop :=
  cellsRising descs ∧ ∀ c ∈ descs, c.1 < 256 ∧ c.2 ≠ descReset

/-- `PRES[slot]`. -/
def isPresent (s : State) (slot : Slot) : Bool := (descOf s.desc slot).pres

/-- `SLEN[slot]`. -/
def declaredLen (s : State) (slot : Slot) : Half := (descOf s.desc slot).len

/-- `PRES[slot] <- pres; SLEN[slot] <- len`. -/
def setDesc (s : State) (slot : Slot) (pres : Bool) (len : Half) : State :=
  { s with desc := putDesc s.desc slot ⟨pres, len⟩ }

/-- For all of these slots: `PRES[slot] <- 1; SLEN[slot] <- L` (R141, R146). -/
def markPresent (s : State) (slots : List Nat) : State :=
  { s with desc := slots.foldl (fun d p => putDesc d (slotOf p) ⟨true, s.cfg.l⟩) s.desc }

/-! ### Answering a command -/

/-- One response word on the response channel (R192). -/
def answer (s : State) (r : RspWord) : State := { s with rspOut := s.rspOut ++ [r] }

/-- `respond(p, val)`: the command ends without error (R9, R63). -/
def respondWith (p : Bool) (val : Half) (s : State) : Result := .next (answer s (responseWord 0 p val))

/-- `respond(val)` (R9). -/
def respond (val : Half) (s : State) : Result := respondWith false val s

/-- `raise E`, what an exception is on this block (R163, R165): the command sets the error's bit of
`ERRLOG`, its response carries the code alone, and nothing else changes. There is no trap entry, and
nothing to return from (R166): the block takes the next command as before. -/
def raise (e : ErrorKind) (s : State) : Result :=
  .next (answer { s with errlog := logError s.errlog e } (responseWord (errorCode e) false 0))

/-! ### Control and status registers (R14) -/

/-- The value of a register; `none` where there is no register with this number. -/
def readCsr (s : State) (sel : Byte) : Option Half :=
  match sel.toNat with
  | 0 => some (flagsWord s)
  | 1 => some (zext16 s.cfg.n)
  | 2 => some (zext16 s.cfg.m)
  | 3 => some s.cfg.l
  | 4 => some (zext16 s.errlog)
  | _ => none

/-! ### The engine (R107, R142, R141, R146) -/

/-- `DecMat(PRES)` for the engine instance (R107). -/
def decodingMatrix (s : State) : Except ErrorKind (List Slot × Mat) :=
  decMat (numData s) (numParity s) s.gen (isPresent s)

/-- `Dot(a, src, n, k)` (R142): one output byte of the multiply-accumulate core. -/
def dot (s : State) (a : Nat → Byte) (src : Nat → Slot) (n k : Nat) : Byte :=
  xorSum n (fun j => gfMul (a j) (readShard s (src j) (offOf k)))

/-- Byte k of the shard that generator row `p` gives from the data slots 0..N-1 (R141, R146). -/
def encodedByte (s : State) (p k : Nat) : Byte :=
  dot s (entry s.gen p) slotOf (numData s) k

/-- Byte k of data shard `d` as the decoding matrix gives it from the selected slots (R145). -/
def decodedByte (s : State) (sel : List Slot) (dec : Mat) (d k : Nat) : Byte :=
  dot s (entry dec d) (selEntry sel) (numData s) k

/-- The slots of the parity shards, N..N+M-1 (R45). -/
def paritySlots (s : State) : List Nat := List.range' (numData s) (numParity s)

/-- `ED`: the erased data slots (R145). -/
def erasedData (s : State) : List Nat :=
  (List.range (numData s)).filter (fun d => !isPresent s (slotOf d))

/-- `EP`: the erased parity slots (R145). -/
def erasedParity (s : State) : List Nat :=
  (paritySlots s).filter (fun p => !isPresent s (slotOf p))

/-! ### The host's channels (R190, R192) -/

/-- The next event of the host, and the state once it is taken; `none` while the host presents
nothing. -/
def takeEvent (s : State) : Option (HostEvent × State) :=
  match s.cmdIn with
  | [] => none
  | e :: rest => some (e, { s with cmdIn := rest })

/-- No command is presented: the block waits (R190; log entry 4). -/
def idle (s : State) : Result := .next s

/-- A word that matches no row of the opcode table (R65, R66). -/
def answerIllegal (s : State) : Result := raise .illegalCommand s

/-- The reset input (R190): every piece of state takes its reset value, there is no response, and the
unwritten bytes are drawn afresh (U1). What the host has still to present and what it has been given
are the host's (R24). -/
def applyReset (s : State) : Result :=
  .next { State.reset with cmdIn := s.cmdIn, rspOut := s.rspOut, resets := s.resets + 1 }

/-- The state with a command word presented next (R192). -/
def present (s : State) (w : CmdWord) : State := { s with cmdIn := .command w :: s.cmdIn }

end Sys2Proof.Machine
end

