-- ==== Sys2Proof/Machine/CodecCmds.lean ====
section
/-! DEFINITION. The codec's commands: `ENCODE` (R140, R141) and `RECON` (R144 to R148). -/

namespace Sys2Proof.Machine

/-- A data slot's declared length is not L (R140). -/
def encodeLengthsDiffer (s : State) : Bool :=
  (List.range (numData s)).any (fun j => declaredLen s (slotOf j) != s.cfg.l)

/-- The effect of `ENCODE` when its checks pass (R141). -/
def encodeEffect (s : State) : State :=
  markPresent (storeShards s (paritySlots s) (encodedByte s)) (paritySlots s)

/-- `ENCODE cnt` (R140, R141): the checks in their order, then the effect. -/
def execEncode (cnt : Half) (s : State) : Result :=
  if !s.cfg.valid then raise .sequence s
  else if cnt.toNat ≠ numData s then raise .shape s
  else if encodeLengthsDiffer s then raise .shape s
  else respond 0 (encodeEffect s)

/-- A present slot's declared length is not L (R144). -/
def reconLengthsDiffer (s : State) : Bool :=
  (List.range (numData s + numParity s)).any
    (fun k => isPresent s (slotOf k) && declaredLen s (slotOf k) != s.cfg.l)

/-- The data phase of `RECON` (R145): `SEL`, `DEC`, `DECV`, and the bytes of the erased data slots. -/
def reconData (sel : List Slot) (dec : Mat) (s : State) : State :=
  storeShards { s with sel := sel, dec := dec, decv := true } (erasedData s)
    (decodedByte s sel dec)

/-- The effect of `RECON` when its checks pass (R145, R146): the data phase, then the parity phase
when parity is requested, then the descriptors. The erased slots are those of the state before the
command. -/
def reconEffect (mode : Mode) (sel : List Slot) (dec : Mat) (s : State) : State :=
  let s1 := reconData sel dec s
  match mode with
  | .all =>
    markPresent (markPresent (storeShards s1 (erasedParity s) (encodedByte s1)) (erasedParity s))
      (erasedData s)
  | .data => markPresent s1 (erasedData s)

/-- `RECON mode, cnt` (R144 to R146): the checks in their order, then the effect. -/
def execRecon (mode : Mode) (cnt : Half) (s : State) : Result :=
  if !s.cfg.valid then raise .sequence s
  else if cnt.toNat ≠ numData s + numParity s then raise .shape s
  else if reconLengthsDiffer s then raise .shape s
  else
    match decodingMatrix s with
    | .error e => raise e s
    | .ok (sel, dec) => respond 0 (reconEffect mode sel dec s)

end Sys2Proof.Machine
end

