-- ==== Sys2Proof/Machine/FieldCmds.lean ====
section
/-! DEFINITION. The field-arithmetic commands: `NOP`, `GFADD`, `GFMUL`, `GFDIV`, `GFINV`
(R86 to R90). None needs an engine instance. -/

namespace Sys2Proof.Machine

/-- `NOP` (R89). -/
def execNop (s : State) : Result := respond 0 s

/-- `GFADD x, y` (R86). -/
def execGfadd (x y : Byte) (s : State) : Result := respond (zext16 (gfAdd x y)) s

/-- `GFMUL x, y` (R87). -/
def execGfmul (x y : Byte) (s : State) : Result := respond (zext16 (gfMul x y)) s

/-- `GFDIV x, y` (R88): `DomainError` exactly when `y = 0`. -/
def execGfdiv (x y : Byte) (s : State) : Result :=
  match gfDiv x y with
  | none => raise .domain s
  | some q => respond (zext16 q) s

/-- `GFINV x` (R90): `DomainError` exactly when `x = 0`. -/
def execGfinv (x : Byte) (s : State) : Result :=
  match gfInv x with
  | none => raise .domain s
  | some q => respond (zext16 q) s

end Sys2Proof.Machine
end

