-- ==== Sys2Proof/Machine/MatrixCmds.lean ====
section
/-! DEFINITION. The commands of the matrix engine: `CONFIG`, `CSRRD`, `GENRD`, `MKDEC`, `DECRD`,
`SELRD` (R110 to R115). -/

namespace Sys2Proof.Machine

/-- The coding parameters are illegal (R110): n < 1, n > 256 or n + m > 256, without wrap. -/
def badParameters (n m : Half) : Bool :=
  n.toNat < 1 || Config.fieldSize < n.toNat || Config.fieldSize < n.toNat + m.toNat

/-- `CONFIG kind, n, m, len` (R110): a new engine instance. -/
def execConfig (kind : Kind) (n m len : Half) (s : State) : Result :=
  if badParameters n m then raise .parameter s
  else
    respond 0
      { s with
        cfg := ⟨true, kind, n.setWidth 9, m.setWidth 9, len⟩
        gen := generator kind n.toNat m.toNat
        decv := false }

/-- `CSRRD sel` (R111). -/
def execCsrrd (sel : Byte) (s : State) : Result :=
  match readCsr s sel with
  | none => raise .range s
  | some v => respond v s

/-- `GENRD row, col` (R112). -/
def execGenrd (row col : Byte) (s : State) : Result :=
  if !s.cfg.valid then raise .sequence s
  else if row.toNat ≥ numData s + numParity s ∨ col.toNat ≥ numData s then raise .range s
  else respond (zext16 (entry s.gen row.toNat col.toNat)) s

/-- `MKDEC` (R113). -/
def execMkdec (s : State) : Result :=
  if !s.cfg.valid then raise .sequence s
  else
    match decodingMatrix s with
    | .error e => raise e s
    | .ok (sel, dec) => respond 0 { s with sel := sel, dec := dec, decv := true }

/-- `DECRD row, col` (R114). -/
def execDecrd (row col : Byte) (s : State) : Result :=
  if !s.cfg.valid || !s.decv then raise .sequence s
  else if row.toNat ≥ numData s ∨ col.toNat ≥ numData s then raise .range s
  else respond (zext16 (entry s.dec row.toNat col.toNat)) s

/-- `SELRD i` (R115). -/
def execSelrd (i : Byte) (s : State) : Result :=
  if !s.cfg.valid || !s.decv then raise .sequence s
  else if i.toNat ≥ numData s then raise .range s
  else respond (zext16 (selEntry s.sel i.toNat)) s

end Sys2Proof.Machine
end

