-- ==== Sys2Proof/Machine/StoreCmds.lean ====
section
/-! DEFINITION. The commands of the shard store: `SHWR`, `SHRD`, `SHSET`, `SHGET` (R130 to R133).
None needs an engine instance, and none raises an error. -/

namespace Sys2Proof.Machine

/-- `SHWR slot, off, val` (R130). -/
def execShwr (slot : Slot) (off : Half) (val : Byte) (s : State) : Result :=
  respond 0 (memWrite s (addrOf slot off) val)

/-- `SHRD slot, off` (R131): a byte nothing has written is a free value (R46, U1). -/
def execShrd (slot : Slot) (off : Half) (s : State) : Result :=
  respond (zext16 (readShard s slot off)) s

/-- `SHSET slot, len, pres` (R132). -/
def execShset (slot : Slot) (len : Half) (pres : Bool) (s : State) : Result :=
  respond 0 (setDesc s slot pres len)

/-- `SHGET slot` (R133). -/
def execShget (slot : Slot) (s : State) : Result :=
  respondWith (isPresent s slot) (declaredLen s slot) s

end Sys2Proof.Machine
end

