-- ==== Sys2Proof/Machine/Dispatch.lean ====
section
/-! DEFINITION. One arm per command (R64): the command's meaning. -/

namespace Sys2Proof.Machine

/-- Execute a decoded command completely, as one atomic step (R3, R48, R66). -/
def exec (i : Instr) (s : State) : Host.Outcome State Fault Refusal :=
  match i with
  | .nop => Sys2Proof.Machine.execNop s
  | .gfadd x y => Sys2Proof.Machine.execGfadd x y s
  | .gfmul x y => Sys2Proof.Machine.execGfmul x y s
  | .gfdiv x y => Sys2Proof.Machine.execGfdiv x y s
  | .gfinv x => Sys2Proof.Machine.execGfinv x s
  | .config kind n m len => Sys2Proof.Machine.execConfig kind n m len s
  | .csrrd sel => Sys2Proof.Machine.execCsrrd sel s
  | .genrd row col => Sys2Proof.Machine.execGenrd row col s
  | .mkdec => Sys2Proof.Machine.execMkdec s
  | .decrd row col => Sys2Proof.Machine.execDecrd row col s
  | .selrd idx => Sys2Proof.Machine.execSelrd idx s
  | .shwr slot off val => Sys2Proof.Machine.execShwr slot off val s
  | .shrd slot off => Sys2Proof.Machine.execShrd slot off s
  | .shset slot len pres => Sys2Proof.Machine.execShset slot len pres s
  | .shget slot => Sys2Proof.Machine.execShget slot s
  | .encode cnt => Sys2Proof.Machine.execEncode cnt s
  | .recon mode cnt => Sys2Proof.Machine.execRecon mode cnt s

end Sys2Proof.Machine
end

