-- ==== Sys2Proof/Machine/Step.lean ====
section
/-! DEFINITION. One step of the machine: the host's next event, decoded and executed (R3, R48, R66,
R190). -/

namespace Sys2Proof.Machine

/-- One step: wait if the host presents nothing; apply the reset input; or take one command word,
decode it, and execute it or answer that it is illegal. -/
def step (s : State) : Host.Outcome State Fault Refusal :=
  match takeEvent s with
  | none => idle s
  | some (.reset, s') => applyReset s'
  | some (.command w, s') =>
    match decode w with
    | .ok i => exec i s'
    | .error _ => answerIllegal s'

/-- The state with the instruction whose bits are `w` (numbered as the opcode table numbers them, one
64-bit word, the bits above `nbits` 0) presented as the host's next command. -/
def State.withFetchWord (s : State) (nbits w : Nat) : State :=
  present s (BitVec.ofNat 64 (w % 2 ^ nbits))

end Sys2Proof.Machine
end

