-- ==== Sys2Proof/Safety.lean ====
section
/-! DEFINITION. The terms that claims use: how a command ends, when coding parameters are legal, what
every step keeps, and what a run without errors is. -/

namespace Sys2Proof.Machine

/-- The command ends without error in the state `s'` with one response added: `ERR = 0`, reserved
bits 0, `P = p`, `VAL = val` (R9, R63). Everything else of the state is `s'`. -/
def Answers (o : Result) (s' : State) (p : Bool) (val : Half) : Prop :=
  ∃ r : RspWord, o = .next { s' with rspOut := s'.rspOut ++ [r] } ∧
    rspErr r = 0 ∧ rspReserved r = 0 ∧ rspP r = p ∧ rspVal r = val

/-- The command ends with error code `c` (R163): bit `c` of `ERRLOG` is set, the response is
`{c, 0x00, 0x0000}`, and everything else of the state is `s`. -/
def Fails (o : Result) (s : State) (c : Nat) : Prop :=
  ∃ r : RspWord,
    o = .next { s with errlog := s.errlog ||| BitVec.twoPow 9 c, rspOut := s.rspOut ++ [r] } ∧
    rspErr r = BitVec.ofNat 8 c ∧ rspReserved r = 0 ∧ rspP r = false ∧ rspVal r = 0

/-- The commands whose response carries a result in `VAL` (R63, R86 to R88, R90, R111, R112, R114,
R115, R131, R133). -/
def hasResult (i : Instr) : Bool :=
  match i with
  | .nop | .config _ _ _ _ | .mkdec | .shwr _ _ _ | .shset _ _ _ | .encode _ | .recon _ _ => false
  | .gfadd _ _ | .gfmul _ _ | .gfdiv _ _ | .gfinv _ | .csrrd _ | .genrd _ _ | .decrd _ _
  | .selrd _ | .shrd _ _ | .shget _ => true

/-- The error codes each command can end with once it is decoded (R161; 3 is checked for and
unreachable). -/
def possibleErrors (i : Instr) : List Nat :=
  match i with
  | .nop | .gfadd _ _ | .gfmul _ _ => []
  | .gfdiv _ _ | .gfinv _ => [2]
  | .config _ _ _ _ => [5]
  | .csrrd _ => [8]
  | .genrd _ _ => [7, 8]
  | .mkdec => [3, 4, 7]
  | .decrd _ _ | .selrd _ => [7, 8]
  | .shwr _ _ _ | .shrd _ _ | .shset _ _ _ | .shget _ => []
  | .encode _ => [1, 7]
  | .recon _ _ => [1, 3, 4, 7]

/-- Legal coding parameters: N >= 1, M >= 0, N + M <= 256 (R6, R13). -/
def LegalParameters (n m : Nat) : Prop := 1 ≤ n ∧ n + m ≤ Config.fieldSize

/-- `P` of R107: the indices below N + M whose slot is present, ascending. -/
def presentIndices (s : State) : List Nat :=
  (List.range (numData s + numParity s)).filter (fun i => isPresent s (slotOf i))

/-- The selection of R107: the first N present slots. -/
def selectedSlots (s : State) : List Slot := ((presentIndices s).take (numData s)).map slotOf

/-- The slot is one that `RECON` in this mode is asked to refill: an erased data slot, or with mode
`ALL` any erased slot below N + M (R144). -/
def Requested (mode : Mode) (s : State) (slot : Slot) : Prop :=
  isPresent s slot = false ∧
    (slot.toNat < numData s ∨ (mode = .all ∧ slot.toNat < numData s + numParity s))

/-- What R140 asks of the state and the operand for `ENCODE` to succeed. -/
def EncodeReady (cnt : Half) (s : State) : Prop :=
  s.cfg.valid = true ∧ cnt.toNat = numData s ∧
    ∀ j < numData s, declaredLen s (slotOf j) = s.cfg.l

/-- What R144 asks of the state and the operand before the decoding matrix: an engine instance, the
right count, and every present slot of length L. -/
def ReconShapeOk (cnt : Half) (s : State) : Prop :=
  s.cfg.valid = true ∧ cnt.toNat = numData s + numParity s ∧
    ∀ i < numData s + numParity s, isPresent s (slotOf i) = true → declaredLen s (slotOf i) = s.cfg.l

/-- The top N rows of a matrix are `I_N` (R17, R104). -/
def TopIdentity (n : Nat) (A : Mat) : Prop :=
  ∀ i < n, ∀ j < n, entry A i j = if i = j then 1 else 0

/-- The invariant of the machine: what R13, R15, R16, R17, R18, R41 say of every reachable state. -/
structure MachineInv (s : State) : Prop where
  /-- The shard store is in its canonical form, with 24-bit addresses (R41). -/
  memWf : Memory.wf s.mem
  /-- The descriptors are in their canonical form. -/
  descWf : Descs.wf s.desc
  /-- Bit 0 of `ERRLOG` is 0 (R16). -/
  errlogBit0 : s.errlog.getLsbD 0 = false
  /-- With no engine instance the configuration has its reset value (R13). -/
  cfgInvalid : s.cfg.valid = false → s.cfg = State.reset.cfg
  /-- With an engine instance the parameters are legal (R13). -/
  cfgLegal : s.cfg.valid = true → LegalParameters (numData s) (numParity s)
  /-- With an engine instance `GEN` is the generator matrix of its parameters (R17). -/
  genBuilt : s.cfg.valid = true → s.gen = generator s.cfg.kind (numData s) (numParity s)
  /-- While `DECV` is set there is an engine instance, and `SEL` and `DEC` are what the decoding-matrix
  unit gives for some presence flags under it (R15, R18). -/
  decBuilt : s.decv = true → s.cfg.valid = true ∧
    ∃ pres : Slot → Bool, decMat (numData s) (numParity s) s.gen pres = .ok (s.sel, s.dec)

/-- No command has ended with an error since reset (R16, R166). -/
def ErrorFree (s : State) : Prop := s.errlog = 0

end Sys2Proof.Machine
end

