-- ==== Sys2Proof/Certificates/Slice0/Obligations.lean ====
section
/-! DEFINITION. The statements about RSEC-CORE for the provers. Each docstring names the rule it
formalises. -/

open Sys2Proof Sys2Proof.Machine

/-! ### Encoding -/

/-- R61, R62, R64, R66: no bit of an operand is dropped or moved. -/
def Obligations.DecodeOfEncodeIsIdentity : Prop :=
  ∀ i : Instr, wellFormed i = true → decode (encode i) = .ok i

/-- R61, R65: a legal word holds nothing but the command it decodes to. -/
def Obligations.EncodeOfDecodeIsIdentity : Prop :=
  ∀ (w : CmdWord) (i : Instr), decode w = .ok i → encode i = w

/-- R64, R66: the decoder accepts exactly the words that match a row of the opcode table. -/
def Obligations.LegalWordsAreTableWords : Prop :=
  ∀ w : CmdWord, (∃ i, decode w = .ok i) ↔ wellFormedWord w = true

/-- R64: no word matches two rows of the opcode table. -/
def Obligations.OpcodeRowsAreExclusive : Prop :=
  ∀ (w : CmdWord) (r1 r2 : OpcodeRow), r1 ∈ opcodeTable → r2 ∈ opcodeTable →
    r1.matchesWord w = true → r2.matchesWord w = true → r1 = r2

/-- R67: the example words of the assembler syntax decode to the commands they stand for. -/
def Obligations.SpecExampleWordsDecode : Prop :=
  decode 0x0202800000000000 = .ok (.gfmul 0x02 0x80) ∧
  decode 0x1000000400020008 = .ok (.config .vandermonde 4 2 8) ∧
  decode 0x200300071F000000 = .ok (.shwr 3 7 0x1F) ∧
  decode 0x2201000801000000 = .ok (.shset 1 8 true) ∧
  decode 0x3000000400000000 = .ok (.encode 4) ∧
  decode 0x3100000600000000 = .ok (.recon .all 6) ∧
  decode 0x3101000600000000 = .ok (.recon .data 6)

/-! ### The step -/

/-- R3, R66: a step whose next event is a command word that decodes is that command executed in the
state without the word. -/
def Obligations.StepExecutesDecodedCommand : Prop :=
  ∀ (s : State) (w : CmdWord) (i : Instr) (rest : List HostEvent),
    s.cmdIn = .command w :: rest → decode w = .ok i → step s = exec i { s with cmdIn := rest }

/-- R65: a word that matches no row changes nothing but bit 6 of `ERRLOG`, and the response is
0x06000000. -/
def Obligations.IllegalWordIsAnswered : Prop :=
  ∀ (s : State) (w : CmdWord) (rest : List HostEvent),
    s.cmdIn = .command w :: rest → wellFormedWord w = false →
      step s = .next { s with
        cmdIn := rest, errlog := s.errlog ||| 0x040, rspOut := s.rspOut ++ [0x06000000] }

/-- R190: the reset input gives every piece of the spec's state its reset value and no response.
The model's choices: `GEN`, `DEC` and `SEL`, which R25 and R190 leave unspecified, list nothing
afterwards (log entry 3); what the host has still to present and has been given stays (log entry 4);
and the free values of unwritten bytes are drawn afresh (log entry 1). -/
def Obligations.ResetEventRestoresResetState : Prop :=
  ∀ (s : State) (rest : List HostEvent), s.cmdIn = .reset :: rest →
    ∃ k : Nat, step s = .next { State.reset with cmdIn := rest, rspOut := s.rspOut, resets := k }

/-- The model's choice (log entry 4; R190 says only that the block waits for a command): a step with no
event presented changes nothing. -/
def Obligations.StepWaitsWhenNothingIsPresented : Prop :=
  ∀ s : State, s.cmdIn = [] → step s = .next s

/-- R25: the reset values the spec gives. Every slot is erased with length 0, and no byte of the store
has been written. -/
def Obligations.ResetStateHasSpecValues : Prop :=
  State.reset.cfg.valid = false ∧ State.reset.cfg.kind = .vandermonde ∧
  State.reset.cfg.n = 0 ∧ State.reset.cfg.m = 0 ∧ State.reset.cfg.l = 0 ∧
  State.reset.decv = false ∧ State.reset.errlog = 0 ∧
  (∀ slot : Slot, isPresent State.reset slot = false ∧ declaredLen State.reset slot = 0) ∧
  (∀ a : Nat, cellsGet a State.reset.mem = none)

/-- R13, R15 to R18: the invariant holds right after reset. -/
def Obligations.ResetSatisfiesInvariant : Prop := MachineInv State.reset

/-- R13, R15 to R18, R41: every step keeps the invariant, from every state that has it. -/
def Obligations.StepKeepsInvariant : Prop :=
  ∀ s t : State, MachineInv s → step s = .next t → MachineInv t

/-- R63: every command word, legal or not, in every state, is answered by exactly one response; its
reserved bits are 0; with a nonzero `ERR`, `P` and `VAL` are 0; `P` is 0 but for `SHGET`, where it is the
presence flag; `VAL` is 0 for a command that has no result. -/
def Obligations.EveryCommandWordGetsOneResponse : Prop :=
  ∀ (s : State) (w : CmdWord) (rest : List HostEvent), s.cmdIn = .command w :: rest →
    ∃ (t : State) (r : RspWord), step s = .next t ∧ t.cmdIn = rest ∧ t.rspOut = s.rspOut ++ [r] ∧
      rspReserved r = 0 ∧ (rspErr r).toNat ≤ 8 ∧
      (rspErr r ≠ 0 → rspP r = false ∧ rspVal r = 0) ∧
      (rspP r = true → ∃ slot, decode w = .ok (.shget slot)) ∧
      (∀ slot, decode w = .ok (.shget slot) → rspP r = isPresent s slot) ∧
      (∀ i, decode w = .ok i → hasResult i = false → rspVal r = 0)

/-! ### Whole-machine rules -/

/-- R163: a command, or an illegal word, that ends with `ERR = c != 0` sets `ERRLOG[c]` and changes
nothing else; its response is `{c, 0x00, 0x0000}`. -/
def Obligations.FailingCommandChangesOnlyErrlog : Prop :=
  (∀ (i : Instr) (s t : State) (r : RspWord), exec i s = .next t → t.rspOut = s.rspOut ++ [r] →
    rspErr r ≠ 0 →
      t = { s with errlog := s.errlog ||| BitVec.twoPow 9 (rspErr r).toNat, rspOut := s.rspOut ++ [r] } ∧
      r = (rspErr r ++ (0 : BitVec 24) : RspWord)) ∧
  (∀ (s t : State) (w : CmdWord) (rest : List HostEvent) (r : RspWord),
    s.cmdIn = .command w :: rest → step s = .next t → t.rspOut = s.rspOut ++ [r] → rspErr r ≠ 0 →
      t = { s with
        cmdIn := rest, errlog := s.errlog ||| BitVec.twoPow 9 (rspErr r).toNat
        rspOut := s.rspOut ++ [r] } ∧
      r = (rspErr r ++ (0 : BitVec 24) : RspWord))

/-- R16: after any command word, bit c (1 to 8) of `ERRLOG` is set exactly when it was set or the command
ended with code c; bit 0 is left as it is, and it is 0 after reset; only a reset clears a bit. No command
but `CSRRD` depends on `ERRLOG`. -/
def Obligations.ErrlogRecordsExactlyTheErrors : Prop :=
  (∀ (s : State) (w : CmdWord) (rest : List HostEvent), s.cmdIn = .command w :: rest →
    ∃ (t : State) (r : RspWord), step s = .next t ∧ t.rspOut = s.rspOut ++ [r] ∧
      (∀ c, 1 ≤ c → c ≤ 8 →
        t.errlog.getLsbD c = (s.errlog.getLsbD c || rspErr r == BitVec.ofNat 8 c)) ∧
      t.errlog.getLsbD 0 = s.errlog.getLsbD 0) ∧
  State.reset.errlog = 0 ∧
  (∀ (i : Instr) (s : State) (e : BitVec 9), (∀ sel, i ≠ .csrrd sel) →
    ∃ (t : State) (e' : BitVec 9), exec i s = .next t ∧
      exec i { s with errlog := e } = .next { t with errlog := e' })

/-- R13, R17: `CONFIG` is the only writer of `CFG` and of `GEN`. -/
def Obligations.OnlyConfigChangesTheInstance : Prop :=
  ∀ (i : Instr) (s t : State), (∀ kind n m len, i ≠ .config kind n m len) → exec i s = .next t →
    t.cfg = s.cfg ∧ t.gen = s.gen

/-- R15: `DECV` after any command: set by a successful `MKDEC` or `RECON`, cleared by a successful
`CONFIG`, left unchanged by everything else, a failing command included. -/
def Obligations.DecvFollowsItsRule : Prop :=
  ∀ (i : Instr) (s t : State) (r : RspWord), exec i s = .next t → t.rspOut = s.rspOut ++ [r] →
    t.decv =
      if rspErr r ≠ 0 then s.decv
      else match i with
        | .mkdec => true
        | .recon _ _ => true
        | .config _ _ _ _ => false
        | _ => s.decv

/-- R12: which commands write `SH`, the descriptors, and `DEC` and `SEL`. The last clause at `CONFIG` is
the model's choice (log entry 3): R18 leaves the content of `DEC` and `SEL` unspecified while `DECV` is 0,
and the model keeps it. -/
def Obligations.OnlyTheListedCommandsWrite : Prop :=
  ∀ (i : Instr) (s t : State), exec i s = .next t →
    ((∀ slot off val, i ≠ .shwr slot off val) → (∀ cnt, i ≠ .encode cnt) →
      (∀ mode cnt, i ≠ .recon mode cnt) → t.mem = s.mem) ∧
    ((∀ slot len pres, i ≠ .shset slot len pres) → (∀ cnt, i ≠ .encode cnt) →
      (∀ mode cnt, i ≠ .recon mode cnt) → t.desc = s.desc) ∧
    (i ≠ .mkdec → (∀ mode cnt, i ≠ .recon mode cnt) → t.sel = s.sel ∧ t.dec = s.dec)

/-- R171, R44: the commands that read have no side effect: nothing changes but the responses and, when
the command fails, `ERRLOG`. -/
def Obligations.ReadCommandsHaveNoSideEffect : Prop :=
  ∀ (i : Instr) (s t : State), exec i s = .next t →
    (∃ sel, i = .csrrd sel) ∨ (∃ row col, i = .genrd row col) ∨ (∃ row col, i = .decrd row col) ∨
      (∃ k, i = .selrd k) ∨ (∃ slot off, i = .shrd slot off) ∨ (∃ slot, i = .shget slot) →
    ∃ r : RspWord, t = { s with errlog := t.errlog, rspOut := s.rspOut ++ [r] } ∧
      (rspErr r = 0 → t.errlog = s.errlog)

/-- R45: the engine's commands never write a slot at or above N + M, nor an offset at or above L, nor
the descriptor of a slot at or above N + M. -/
def Obligations.EngineStaysInItsWindow : Prop :=
  ∀ (i : Instr) (s t : State), numData s + numParity s ≤ 256 → exec i s = .next t →
    i = .mkdec ∨ (∃ cnt, i = .encode cnt) ∨ (∃ mode cnt, i = .recon mode cnt) →
    (∀ (slot : Slot) (off : Half),
      numData s + numParity s ≤ slot.toNat ∨ shardLen s ≤ off.toNat →
        readShard t slot off = readShard s slot off) ∧
    (∀ slot : Slot, numData s + numParity s ≤ slot.toNat →
      isPresent t slot = isPresent s slot ∧ declaredLen t slot = declaredLen s slot)

/-- R160, R164: with no engine instance every command that needs one answers `SequenceError`, whatever
its operands; so do `DECRD` and `SELRD` while `DECV` is 0. -/
def Obligations.SequenceErrorComesFirst : Prop :=
  (∀ s : State, s.cfg.valid = false →
    (∀ row col, Fails (exec (.genrd row col) s) s 7) ∧ Fails (exec .mkdec s) s 7 ∧
    (∀ row col, Fails (exec (.decrd row col) s) s 7) ∧ (∀ k, Fails (exec (.selrd k) s) s 7) ∧
    (∀ cnt, Fails (exec (.encode cnt) s) s 7) ∧
    (∀ mode cnt, Fails (exec (.recon mode cnt) s) s 7)) ∧
  (∀ s : State, s.decv = false →
    (∀ row col, Fails (exec (.decrd row col) s) s 7) ∧ (∀ k, Fails (exec (.selrd k) s) s 7))

/-- R161: the error codes each command can end with. -/
def Obligations.ErrorCodesByCommand : Prop :=
  ∀ (i : Instr) (s t : State) (r : RspWord), exec i s = .next t → t.rspOut = s.rspOut ++ [r] →
    rspErr r = 0 ∨ (rspErr r).toNat ∈ possibleErrors i

/-! ### Field-arithmetic commands -/

/-- R89: `NOP` is the all-zero word; it answers 0 and writes nothing, in every state. -/
def Obligations.NopAnswersZero : Prop :=
  decode 0x0000000000000000 = .ok .nop ∧ ∀ s : State, Answers (exec .nop s) s false 0

/-- R86, R80: `GFADD x, y` answers the exclusive-or of the bytes, and writes nothing. -/
def Obligations.GfaddAnswersSum : Prop :=
  ∀ (x y : Byte) (s : State),
    decode (0x01#8 ++ x ++ y ++ 0#40 : CmdWord) = .ok (.gfadd x y) ∧
    Answers (exec (.gfadd x y) s) s false ((x ^^^ y).setWidth 16)

/-- R87, R82: `GFMUL x, y` answers the field product, and writes nothing; the corner cases with an
operand 0 or 1, and the spec's three products. -/
def Obligations.GfmulAnswersProduct : Prop :=
  (∀ (x y : Byte) (s : State),
    decode (0x02#8 ++ x ++ y ++ 0#40 : CmdWord) = .ok (.gfmul x y) ∧
    Answers (exec (.gfmul x y) s) s false ((gfMul x y).setWidth 16)) ∧
  (∀ x : Byte, gfMul x 0 = 0 ∧ gfMul 0 x = 0 ∧ gfMul x 1 = x ∧ gfMul 1 x = x) ∧
  gfMul 0xFF 0xFF = 0xE2 ∧ gfMul 0x80 0x80 = 0x13 ∧ gfMul 0x53 0xCA = 0x8F

/-- R88, R85: for y not 0, `GFDIV x, y` answers x times the byte whose product with y is 1; for y = 0 it
is a `DomainError`, whatever x is. -/
def Obligations.GfdivAnswersQuotientOrDomainError : Prop :=
  ∀ (x y : Byte) (s : State),
    decode (0x03#8 ++ x ++ y ++ 0#40 : CmdWord) = .ok (.gfdiv x y) ∧
    (y ≠ 0 → ∃ q : Byte, gfMul y q = 1 ∧
      Answers (exec (.gfdiv x y) s) s false ((gfMul x q).setWidth 16)) ∧
    (y = 0 → Fails (exec (.gfdiv x y) s) s 2)

/-- R90, R84: for x not 0, `GFINV x` answers the byte whose product with x is 1; `GFINV 0` is a
`DomainError`. -/
def Obligations.GfinvAnswersInverseOrDomainError : Prop :=
  ∀ (x : Byte) (s : State),
    decode (0x04#8 ++ x ++ 0#48 : CmdWord) = .ok (.gfinv x) ∧
    (x ≠ 0 → ∃ q : Byte, gfMul x q = 1 ∧ Answers (exec (.gfinv x) s) s false (q.setWidth 16)) ∧
    (x = 0 → Fails (exec (.gfinv x) s) s 2)

/-! ### Matrix-engine commands -/

/-- R110: with n >= 1 and n + m <= 256, `CONFIG` writes the five `CFG` fields and `GEN` and clears `DECV`;
otherwise it is a `ParameterError`. That a successful `CONFIG` keeps the content of `DEC` and `SEL` is the
model's choice (log entry 3): the spec says only that they become unreadable. -/
def Obligations.ConfigBuildsInstanceOrParameterError : Prop :=
  ∀ (kind : Kind) (n m len : Half) (s : State),
    decode (0x10#8 ++ 0#7 ++ BitVec.ofBool (kind == .cauchy) ++ n ++ m ++ len : CmdWord) =
      .ok (.config kind n m len) ∧
    (1 ≤ n.toNat → n.toNat + m.toNat ≤ 256 →
      ∃ c : Cfg, c.valid = true ∧ c.kind = kind ∧ c.n.toNat = n.toNat ∧ c.m.toNat = m.toNat ∧
        c.l = len ∧
        Answers (exec (.config kind n m len) s)
          { s with cfg := c, gen := generator kind n.toNat m.toNat, decv := false } false 0) ∧
    (n.toNat < 1 ∨ 256 < n.toNat ∨ 256 < n.toNat + m.toNat →
      Fails (exec (.config kind n m len) s) s 5)

/-- R111, R14: `CSRRD sel` answers `FLAGS`, `N`, `M`, `L` or `ERRLOG`; `sel` >= 5 is a `RangeError`. -/
def Obligations.CsrrdAnswersRegister : Prop :=
  ∀ (sel : Byte) (s : State),
    decode (0x11#8 ++ sel ++ 0#48 : CmdWord) = .ok (.csrrd sel) ∧
    (sel.toNat = 0 → ∃ v : Half, Answers (exec (.csrrd sel) s) s false v ∧
      v.getLsbD 0 = s.cfg.valid ∧ v.getLsbD 1 = (s.cfg.kind == .cauchy) ∧ v.getLsbD 2 = s.decv ∧
      ∀ b, 3 ≤ b → v.getLsbD b = false) ∧
    (sel.toNat = 1 → ∃ v : Half, Answers (exec (.csrrd sel) s) s false v ∧ v.toNat = numData s) ∧
    (sel.toNat = 2 → ∃ v : Half, Answers (exec (.csrrd sel) s) s false v ∧ v.toNat = numParity s) ∧
    (sel.toNat = 3 → Answers (exec (.csrrd sel) s) s false s.cfg.l) ∧
    (sel.toNat = 4 →
      ∃ v : Half, Answers (exec (.csrrd sel) s) s false v ∧ v.toNat = s.errlog.toNat) ∧
    (5 ≤ sel.toNat → Fails (exec (.csrrd sel) s) s 8)

/-- R112: `GENRD row, col` answers `GEN[row][col]`; `SequenceError`, then `RangeError`. -/
def Obligations.GenrdAnswersGeneratorEntry : Prop :=
  ∀ (row col : Byte) (s : State),
    decode (0x12#8 ++ row ++ col ++ 0#40 : CmdWord) = .ok (.genrd row col) ∧
    (s.cfg.valid = false → Fails (exec (.genrd row col) s) s 7) ∧
    (s.cfg.valid = true → numData s + numParity s ≤ row.toNat ∨ numData s ≤ col.toNat →
      Fails (exec (.genrd row col) s) s 8) ∧
    (s.cfg.valid = true → row.toNat < numData s + numParity s → col.toNat < numData s →
      Answers (exec (.genrd row col) s) s false ((entry s.gen row.toNat col.toNat).setWidth 16))

/-- R113, R107: `MKDEC` writes `SEL` (the first N present slots), `DEC` (the inverse of their rows of
`GEN`) and `DECV`, and nothing else; `SequenceError`, then `InsufficientShardsError`, then
`SingularMatrixError`. -/
def Obligations.MkdecDerivesDecodingMatrix : Prop :=
  decode 0x1300000000000000 = .ok .mkdec ∧
  ∀ s : State,
    (s.cfg.valid = false → Fails (exec .mkdec s) s 7) ∧
    (s.cfg.valid = true → (presentIndices s).length < numData s → Fails (exec .mkdec s) s 4) ∧
    (s.cfg.valid = true → numData s ≤ (presentIndices s).length →
      invert (numData s) (selectedRows (numData s) s.gen (selectedSlots s)) = none →
        Fails (exec .mkdec s) s 3) ∧
    (∀ dec : Mat, s.cfg.valid = true → numData s ≤ (presentIndices s).length →
      invert (numData s) (selectedRows (numData s) s.gen (selectedSlots s)) = some dec →
        Answers (exec .mkdec s) { s with sel := selectedSlots s, dec := dec, decv := true } false 0)

/-- R114: `DECRD row, col` answers `DEC[row][col]`; `SequenceError`, then `RangeError`. -/
def Obligations.DecrdAnswersDecodingEntry : Prop :=
  ∀ (row col : Byte) (s : State),
    decode (0x14#8 ++ row ++ col ++ 0#40 : CmdWord) = .ok (.decrd row col) ∧
    (s.cfg.valid = false ∨ s.decv = false → Fails (exec (.decrd row col) s) s 7) ∧
    (s.cfg.valid = true → s.decv = true → numData s ≤ row.toNat ∨ numData s ≤ col.toNat →
      Fails (exec (.decrd row col) s) s 8) ∧
    (s.cfg.valid = true → s.decv = true → row.toNat < numData s → col.toNat < numData s →
      Answers (exec (.decrd row col) s) s false ((entry s.dec row.toNat col.toNat).setWidth 16))

/-- R115: `SELRD i` answers `SEL[i]`; `SequenceError`, then `RangeError`. -/
def Obligations.SelrdAnswersSelectedIndex : Prop :=
  ∀ (k : Byte) (s : State),
    decode (0x15#8 ++ k ++ 0#48 : CmdWord) = .ok (.selrd k) ∧
    (s.cfg.valid = false ∨ s.decv = false → Fails (exec (.selrd k) s) s 7) ∧
    (s.cfg.valid = true → s.decv = true → numData s ≤ k.toNat → Fails (exec (.selrd k) s) s 8) ∧
    (s.cfg.valid = true → s.decv = true → k.toNat < numData s →
      Answers (exec (.selrd k) s) s false ((selEntry s.sel k.toNat).setWidth 16))

/-! ### Shard-store commands -/

/-- R130: `SHWR` writes that one byte and nothing else, whatever the instance, the flags and the lengths
are. -/
def Obligations.ShwrWritesOneByte : Prop :=
  ∀ (slot : Slot) (off : Half) (val : Byte) (s : State),
    decode (0x20#8 ++ slot ++ off ++ val ++ 0#24 : CmdWord) = .ok (.shwr slot off val) ∧
    ∃ t : State, t = { s with mem := t.mem } ∧ Answers (exec (.shwr slot off val) s) t false 0 ∧
      readShard t slot off = val ∧
      ∀ (slot' : Slot) (off' : Half), slot' ≠ slot ∨ off' ≠ off →
        readShard t slot' off' = readShard s slot' off'

/-- R131, R41: `SHRD` answers the byte written at address slot * 65536 + off; it always completes with
some byte, and writes nothing. -/
def Obligations.ShrdAnswersByte : Prop :=
  ∀ (slot : Slot) (off : Half) (s : State),
    decode (0x21#8 ++ slot ++ off ++ 0#32 : CmdWord) = .ok (.shrd slot off) ∧
    (∃ v : Byte, Answers (exec (.shrd slot off) s) s false (v.setWidth 16)) ∧
    (∀ v : Byte, cellsGet (slot.toNat * 65536 + off.toNat) s.mem = some v →
      Answers (exec (.shrd slot off) s) s false (v.setWidth 16))

/-- R130, R131, R48: a byte read back by the next command is the byte written. -/
def Obligations.ShwrThenShrdAnswersTheByte : Prop :=
  ∀ (slot : Slot) (off : Half) (val : Byte) (s t : State),
    exec (.shwr slot off val) s = .next t →
      Answers (exec (.shrd slot off) t) t false (val.setWidth 16)

/-- R132: `SHSET` writes `PRES[slot]` and `SLEN[slot]` and nothing else. -/
def Obligations.ShsetWritesDescriptor : Prop :=
  ∀ (slot : Slot) (len : Half) (pres : Bool) (s : State),
    decode (0x22#8 ++ slot ++ len ++ 0#7 ++ BitVec.ofBool pres ++ 0#24 : CmdWord) =
      .ok (.shset slot len pres) ∧
    ∃ t : State, t = { s with desc := t.desc } ∧ Answers (exec (.shset slot len pres) s) t false 0 ∧
      isPresent t slot = pres ∧ declaredLen t slot = len ∧
      ∀ slot' : Slot, slot' ≠ slot →
        isPresent t slot' = isPresent s slot' ∧ declaredLen t slot' = declaredLen s slot'

/-- R133: `SHGET slot` answers `P = PRES[slot]` and `VAL = SLEN[slot]`, and writes nothing. -/
def Obligations.ShgetAnswersDescriptor : Prop :=
  ∀ (slot : Slot) (s : State),
    decode (0x23#8 ++ slot ++ 0#48 : CmdWord) = .ok (.shget slot) ∧
    Answers (exec (.shget slot) s) s (isPresent s slot) (declaredLen s slot)

/-! ### `ENCODE` -/

/-- R140: the checks of `ENCODE` in their order; it does not read `PRES`, and on an error nothing is
written but `ERRLOG`. -/
def Obligations.EncodeChecksInOrder : Prop :=
  ∀ (cnt : Half) (s : State),
    decode (0x30#8 ++ 0#8 ++ cnt ++ 0#32 : CmdWord) = .ok (.encode cnt) ∧
    (s.cfg.valid = false → Fails (exec (.encode cnt) s) s 7) ∧
    (s.cfg.valid = true → cnt.toNat ≠ numData s → Fails (exec (.encode cnt) s) s 1) ∧
    (s.cfg.valid = true → cnt.toNat = numData s →
      (∃ j < numData s, declaredLen s (slotOf j) ≠ s.cfg.l) → Fails (exec (.encode cnt) s) s 1) ∧
    (EncodeReady cnt s → ∃ t : State, Answers (exec (.encode cnt) s) t false 0)

/-- R141, R142: when its checks pass, `ENCODE` gives byte k < L of every parity slot the field-weighted
sum of byte k of the data slots, marks the parity slots present with length L, and changes nothing
else. -/
def Obligations.EncodeWritesParity : Prop :=
  ∀ (cnt : Half) (s : State), EncodeReady cnt s → numData s + numParity s ≤ 256 →
    ∃ t : State, t = { s with mem := t.mem, desc := t.desc } ∧
      Answers (exec (.encode cnt) s) t false 0 ∧
      (∀ (slot : Slot) (off : Half), numData s ≤ slot.toNat →
        slot.toNat < numData s + numParity s → off.toNat < shardLen s →
          readShard t slot off =
            xorSum (numData s) (fun j => gfMul (entry s.gen slot.toNat j) (readShard s (slotOf j) off))) ∧
      (∀ (slot : Slot) (off : Half),
        slot.toNat < numData s ∨ numData s + numParity s ≤ slot.toNat ∨ shardLen s ≤ off.toNat →
          readShard t slot off = readShard s slot off) ∧
      (∀ slot : Slot,
        if numData s ≤ slot.toNat ∧ slot.toNat < numData s + numParity s then
          isPresent t slot = true ∧ declaredLen t slot = s.cfg.l
        else isPresent t slot = isPresent s slot ∧ declaredLen t slot = declaredLen s slot)

/-- Law 5 of 43_codec.md section 4 (an inference the spec marks `[derived: ...]`): `ENCODE` issued again
succeeds and leaves every byte and every descriptor as the first one left it. -/
def Obligations.ReencodingIsIdempotent : Prop :=
  ∀ (cnt : Half) (s t : State), EncodeReady cnt s → numData s + numParity s ≤ 256 →
    Answers (exec (.encode cnt) s) t false 0 →
    ∃ u : State, Answers (exec (.encode cnt) t) u false 0 ∧
      (∀ (slot : Slot) (off : Half), readShard u slot off = readShard t slot off) ∧
      (∀ slot : Slot, isPresent u slot = isPresent t slot ∧ declaredLen u slot = declaredLen t slot)

/-- R143: every parity byte at an offset depends only on the data bytes at the same offset: two states
that differ elsewhere get the same byte. -/
def Obligations.EncodeColumnsAreIndependent : Prop :=
  ∀ (cnt : Half) (s u t v : State) (off : Half), EncodeReady cnt s → EncodeReady cnt u →
    numData s + numParity s ≤ 256 → u.cfg = s.cfg → u.gen = s.gen →
    (∀ j < numData s, readShard u (slotOf j) off = readShard s (slotOf j) off) →
    exec (.encode cnt) s = .next t → exec (.encode cnt) u = .next v →
    ∀ slot : Slot, numData s ≤ slot.toNat → slot.toNat < numData s + numParity s →
      off.toNat < shardLen s → readShard v slot off = readShard t slot off

/-! ### `RECON` -/

/-- R144, R164: the checks of `RECON` in their order. -/
def Obligations.ReconChecksInOrder : Prop :=
  ∀ (mode : Mode) (cnt : Half) (s : State),
    decode (0x31#8 ++ 0#7 ++ BitVec.ofBool (mode == .data) ++ cnt ++ 0#32 : CmdWord) =
      .ok (.recon mode cnt) ∧
    (s.cfg.valid = false → Fails (exec (.recon mode cnt) s) s 7) ∧
    (s.cfg.valid = true → cnt.toNat ≠ numData s + numParity s →
      Fails (exec (.recon mode cnt) s) s 1) ∧
    (s.cfg.valid = true → cnt.toNat = numData s + numParity s →
      (∃ i < numData s + numParity s,
        isPresent s (slotOf i) = true ∧ declaredLen s (slotOf i) ≠ s.cfg.l) →
        Fails (exec (.recon mode cnt) s) s 1) ∧
    (ReconShapeOk cnt s → (presentIndices s).length < numData s →
      Fails (exec (.recon mode cnt) s) s 4) ∧
    (ReconShapeOk cnt s → numData s ≤ (presentIndices s).length →
      invert (numData s) (selectedRows (numData s) s.gen (selectedSlots s)) = none →
        Fails (exec (.recon mode cnt) s) s 3)

/-- R145, R146: when its checks pass, `RECON` writes `SEL`, `DEC` and `DECV`; byte k < L of every erased
data slot becomes the sum that its row of `DEC` gives from the selected slots; with mode `ALL` byte k < L
of every erased parity slot becomes the sum that its row of `GEN` gives from the data slots as they are
afterwards; the refilled slots are marked present with length L; nothing else changes. -/
def Obligations.ReconRefillsRequestedSlots : Prop :=
  ∀ (mode : Mode) (cnt : Half) (s : State) (dec : Mat), ReconShapeOk cnt s →
    numData s + numParity s ≤ 256 → numData s ≤ (presentIndices s).length →
    invert (numData s) (selectedRows (numData s) s.gen (selectedSlots s)) = some dec →
    ∃ t : State,
      t = { s with mem := t.mem, desc := t.desc, sel := selectedSlots s, dec := dec, decv := true } ∧
      Answers (exec (.recon mode cnt) s) t false 0 ∧
      (∀ (slot : Slot) (off : Half), slot.toNat < numData s → isPresent s slot = false →
        off.toNat < shardLen s →
          readShard t slot off =
            xorSum (numData s)
              (fun j => gfMul (entry dec slot.toNat j) (readShard s (selEntry (selectedSlots s) j) off))) ∧
      (∀ (slot : Slot) (off : Half), mode = .all → numData s ≤ slot.toNat →
        slot.toNat < numData s + numParity s → isPresent s slot = false → off.toNat < shardLen s →
          readShard t slot off =
            xorSum (numData s) (fun j => gfMul (entry s.gen slot.toNat j) (readShard t (slotOf j) off))) ∧
      (∀ (slot : Slot) (off : Half), ¬(Requested mode s slot ∧ off.toNat < shardLen s) →
        readShard t slot off = readShard s slot off) ∧
      (∀ slot : Slot,
        (Requested mode s slot → isPresent t slot = true ∧ declaredLen t slot = s.cfg.l) ∧
        (¬Requested mode s slot →
          isPresent t slot = isPresent s slot ∧ declaredLen t slot = declaredLen s slot))

/-- R147: with nothing erased, `RECON` writes only `SEL`, `DEC` and `DECV`. -/
def Obligations.ReconWithNothingErasedMovesNoByte : Prop :=
  ∀ (mode : Mode) (cnt : Half) (s : State) (dec : Mat), ReconShapeOk cnt s →
    (∀ i < numData s + numParity s, isPresent s (slotOf i) = true) →
    invert (numData s) (selectedRows (numData s) s.gen ((List.range (numData s)).map slotOf)) =
      some dec →
    Answers (exec (.recon mode cnt) s)
      { s with sel := (List.range (numData s)).map slotOf, dec := dec, decv := true } false 0

/-- R148 (d): the bytes of erased slots, of slots at or above N + M and at offsets at or above L do not
influence what `RECON` writes. -/
def Obligations.ReconNeverReadsErasedSlots : Prop :=
  ∀ (mode : Mode) (cnt : Half) (s u t : State), numData s + numParity s ≤ 256 →
    u.cfg = s.cfg → u.gen = s.gen → u.desc = s.desc →
    (∀ (slot : Slot) (off : Half), slot.toNat < numData s + numParity s → isPresent s slot = true →
      off.toNat < shardLen s → readShard u slot off = readShard s slot off) →
    Answers (exec (.recon mode cnt) s) t false 0 →
    ∃ v : State, Answers (exec (.recon mode cnt) u) v false 0 ∧ v.sel = t.sel ∧ v.dec = t.dec ∧
      ∀ (slot : Slot) (off : Half), Requested mode s slot → off.toNat < shardLen s →
        readShard v slot off = readShard t slot off

/-- Law 4 of 43_codec.md section 4 and the consequence of the MDS property in 41_matrix_engine.md
section 1 (inferences the spec marks `[derived: ...]`): with at least N of the slots 0..N+M-1 present
`MKDEC` succeeds, and so does `RECON` when the count and the lengths are right; neither ends with
`SingularMatrixError`. -/
def Obligations.DecodingSucceedsWithEnoughShards : Prop :=
  ∀ s : State, MachineInv s → s.cfg.valid = true → numData s ≤ (presentIndices s).length →
    (∃ dec : Mat, Answers (exec .mkdec s)
      { s with sel := selectedSlots s, dec := dec, decv := true } false 0) ∧
    (∀ (mode : Mode) (cnt : Half), ReconShapeOk cnt s →
      ∃ t : State, Answers (exec (.recon mode cnt) s) t false 0)

/-- Laws 2 and 6 of 43_codec.md section 4 (inferences the spec marks `[derived: ...]`): let `t` be the
state after a successful `ENCODE`, and `u` any state of the same instance in which at least N of the
slots are present and every present slot has length L and the bytes it had in `t`. Then `RECON` succeeds
in `u`, and every data slot (with mode `ALL` every slot) is present and has the bytes it had in `t`. -/
def Obligations.ReconRestoresWhatEncodeLeft : Prop :=
  ∀ (mode : Mode) (cnt total : Half) (s t u : State), MachineInv s → EncodeReady cnt s →
    Answers (exec (.encode cnt) s) t false 0 →
    u.cfg = t.cfg → u.gen = t.gen → ReconShapeOk total u →
    (∀ (slot : Slot) (off : Half), slot.toNat < numData s + numParity s → isPresent u slot = true →
      off.toNat < shardLen s → readShard u slot off = readShard t slot off) →
    numData s ≤ (presentIndices u).length →
    ∃ v : State, Answers (exec (.recon mode total) u) v false 0 ∧
      ∀ slot : Slot, slot.toNat < numData s ∨ (mode = .all ∧ slot.toNat < numData s + numParity s) →
        isPresent v slot = true ∧
        ∀ off : Half, off.toNat < shardLen s → readShard v slot off = readShard t slot off

/-! ### The field -/

/-- The arithmetic laws of the field (40_field_arithmetic.md section 1; the spec marks every one
`[derived: from rule R80, rule R82, rule R84 ...]`). -/
def Obligations.FieldLaws : Prop :=
  (∀ a b : Byte, gfAdd a b = gfAdd b a) ∧
  (∀ a b c : Byte, gfAdd (gfAdd a b) c = gfAdd a (gfAdd b c)) ∧
  (∀ a b : Byte, gfMul a b = gfMul b a) ∧
  (∀ a b c : Byte, gfMul (gfMul a b) c = gfMul a (gfMul b c)) ∧
  (∀ a b c : Byte, gfMul a (gfAdd b c) = gfAdd (gfMul a b) (gfMul a c)) ∧
  (∀ a : Byte, gfMul a 1 = a) ∧ (∀ a : Byte, gfMul a 0 = 0) ∧
  (∀ a b : Byte, gfMul a b = 0 → a = 0 ∨ b = 0) ∧
  (∀ a : Byte, a ≠ 0 → ∃ q : Byte, gfInv a = some q ∧ gfMul a q = 1 ∧ gfInv q = some a ∧
    ∀ q' : Byte, gfMul a q' = 1 → q' = q) ∧
  gfInv 1 = some 1

/-- R81: the tables `EXP` and `LOG`: successive products by ALPHA from 1 on, and the inverse table. -/
def Obligations.TablesHoldThePowersOfAlpha : Prop :=
  romRead expTable 0 = some 1 ∧
  (∀ i < 254, ∃ v : Byte, romRead expTable i = some v ∧ romRead expTable (i + 1) = some (xtime v)) ∧
  (∀ i < 255, romRead expTable i = some (gfPow Config.alpha i)) ∧ romRead expTable 255 = none ∧
  romRead logTable 0 = none ∧
  (∀ v i : Byte, romRead logTable v.toNat = some i ↔ romRead expTable i.toNat = some v)

/-- R82, R84: the bit-level product and the table `INV` agree with RSEC's logarithm method. -/
def Obligations.ProductsAgreeWithTables : Prop :=
  (∀ a b : Byte, gfMulByTables a b = some (gfMul a b)) ∧
  (∀ a : Byte, a ≠ 0 → gfInvByTables a = gfInv a)

/-- R101: powers agree with the table formula for every exponent. -/
def Obligations.PowersAgreeWithTables : Prop :=
  ∀ (x : Byte) (e : Nat), gfPowByTables x e = some (gfPow x e)

/-! ### The matrix engine -/

/-- R106: what `Invert` returns is a two-sided inverse. -/
def Obligations.InvertGivesTwoSidedInverse : Prop :=
  ∀ (k : Nat) (A B : Mat), invert k A = some B →
    matMul k k k B A = identityMat k ∧ matMul k k k A B = identityMat k

/-- `Invert` fails only on singular matrices: a matrix with a left inverse is inverted, and its inverse
is that one (41_matrix_engine.md section 1, properties (a) and (b) of `Invert`, which the spec marks
`[derived: from rule R106 ...]`). -/
def Obligations.InvertSucceedsOnInvertible : Prop :=
  ∀ (k : Nat) (A B : Mat), matMul k k k B A = identityMat k →
    ∃ C : Mat, invert k A = some C ∧ ∀ i < k, ∀ j < k, entry C i j = entry B i j

/-- Properties (c) and (d) of `Invert` (41_matrix_engine.md section 1, marked `[derived: ...]`): the
inverse of the identity, and of a 1x1 matrix; a zero 1x1 matrix is singular. -/
def Obligations.InvertOfIdentityAndOfOneByOne : Prop :=
  (∀ k : Nat, invert k (identityMat k) = some (identityMat k)) ∧
  (∀ a q : Byte, gfInv a = some q → invert 1 [[a]] = some [[q]]) ∧
  invert 1 [[0]] = none

/-- R103, R104: the generator matrix for KIND = 1: N rows of the identity, then M rows of reciprocals of
the sums of the two disjoint value sets. -/
def Obligations.CauchyGeneratorEntries : Prop :=
  ∀ n m : Nat, LegalParameters n m →
    (generator .cauchy n m).length = n + m ∧ TopIdentity n (generator .cauchy n m) ∧
    ∀ i < m, ∀ j < n,
      gfMul (entry (generator .cauchy n m) (n + i) j) (BitVec.ofNat 8 (n + i) ^^^ BitVec.ofNat 8 j) = 1

/-- R102, R104: the generator matrix for KIND = 0 times the top square of the Vandermonde matrix is the
Vandermonde matrix. -/
def Obligations.VandermondeGeneratorFactors : Prop :=
  ∀ n m : Nat, LegalParameters n m →
    ∀ r < n + m, ∀ c < n,
      xorSum n (fun t => gfMul (entry (generator .vandermonde n m) r t) (gfPow (BitVec.ofNat 8 t) c)) =
        gfPow (BitVec.ofNat 8 r) c

/-- R17, R104: for either kind the generator matrix has N + M rows of N bytes, and its top N rows are
the identity. -/
def Obligations.GeneratorIsSystematic : Prop :=
  ∀ (kind : Kind) (n m : Nat), LegalParameters n m →
    (generator kind n m).length = n + m ∧
    (∀ r < n + m, (matRow (generator kind n m) r).length = n) ∧
    TopIdentity n (generator kind n m)

/-- The MDS property (41_matrix_engine.md section 1; the spec gives its proof as `[derived: ...]` and
`[from general knowledge, not in source]`): any N different rows of the generator matrix form a matrix
that `Invert` inverts. -/
def Obligations.GeneratorIsMds : Prop :=
  ∀ (kind : Kind) (n m : Nat) (sel : List Slot), LegalParameters n m → sel.length = n → sel.Nodup →
    (∀ slot ∈ sel, slot.toNat < n + m) →
    ∃ D : Mat, invert n (selectedRows n (generator kind n m) sel) = some D

/-- Consequences (a), (b), (c) of the decoding-matrix rule (41_matrix_engine.md section 1, marked
`[derived: from rule R104, rule R106]`): for a matrix whose top is the identity: every present data
index is selected; a selected data index has a unit row in `DEC`; with all data present `SEL` is 0..N-1
and `DEC` is the identity. -/
def Obligations.DecodingMatrixKeepsPresentData : Prop :=
  ∀ (n m : Nat) (gen : Mat) (pres : Slot → Bool) (sel : List Slot) (dec : Mat),
    LegalParameters n m → TopIdentity n gen → decMat n m gen pres = .ok (sel, dec) →
    (∀ d < n, pres (slotOf d) = true → slotOf d ∈ sel) ∧
    (∀ i < n, ∀ d < n, selEntry sel i = slotOf d →
      ∀ j < n, entry dec d j = if j = i then 1 else 0) ∧
    ((∀ d < n, pres (slotOf d) = true) →
      sel = (List.range n).map slotOf ∧ dec = identityMat n)
end

