-- ==== Sys2Proof/Laws/Encoding.lean ====
section
/-! SUPPORT. Every bit of every format of the command word (R61): one lemma per format. -/

namespace Sys2Proof

theorem getLsbD_ofBool (b : Bool) (i : Nat) : (BitVec.ofBool b).getLsbD i = (decide (i = 0) && b) := by
  cases b <;> cases i <;> simp [BitVec.ofBool]

theorem getLsbD_packA (op a : Byte) (i : Nat) : (packA op a).getLsbD i =
    if i < 48 then false else if i < 56 then a.getLsbD (i - 48) else op.getLsbD (i - 56) := by
  simp only [packA, BitVec.getLsbD_append]
  split_ifs <;> first | omega | simp | rfl

theorem getLsbD_packB (op a b : Byte) (i : Nat) : (packB op a b).getLsbD i =
    if i < 40 then false else if i < 48 then b.getLsbD (i - 40)
    else if i < 56 then a.getLsbD (i - 48) else op.getLsbD (i - 56) := by
  simp only [packB, BitVec.getLsbD_append]
  split_ifs <;> first | omega | simp | rfl

theorem getLsbD_packC (op : Byte) (kind : Kind) (n m len : Half) (i : Nat) :
    (packC op kind n m len).getLsbD i =
    if i < 16 then len.getLsbD i else if i < 32 then m.getLsbD (i - 16)
    else if i < 48 then n.getLsbD (i - 32) else if i = 48 then kind == .cauchy
    else if i < 56 then false else op.getLsbD (i - 56) := by
  simp only [packC, BitVec.getLsbD_append, getLsbD_ofBool]
  split_ifs <;> first | omega | (simp; done) | rfl | (simp; omega)

theorem getLsbD_packS (op : Byte) (slot : Slot) (off : Half) (val : Byte) (i : Nat) :
    (packS op slot off val).getLsbD i =
    if i < 24 then false else if i < 32 then val.getLsbD (i - 24)
    else if i < 48 then off.getLsbD (i - 32) else if i < 56 then slot.getLsbD (i - 48)
    else op.getLsbD (i - 56) := by
  simp only [packS, BitVec.getLsbD_append]
  split_ifs <;> first | omega | simp | rfl

theorem getLsbD_packD (op : Byte) (slot : Slot) (len : Half) (pres : Bool) (i : Nat) :
    (packD op slot len pres).getLsbD i =
    if i < 24 then false else if i = 24 then pres else if i < 32 then false
    else if i < 48 then len.getLsbD (i - 32) else if i < 56 then slot.getLsbD (i - 48)
    else op.getLsbD (i - 56) := by
  simp only [packD, BitVec.getLsbD_append, getLsbD_ofBool]
  split_ifs <;> first | omega | (simp; done) | rfl | (simp; omega)

theorem getLsbD_packE (op : Byte) (mode : Mode) (cnt : Half) (i : Nat) :
    (packE op mode cnt).getLsbD i =
    if i < 32 then false else if i < 48 then cnt.getLsbD (i - 32)
    else if i = 48 then mode == .data else if i < 56 then false else op.getLsbD (i - 56) := by
  simp only [packE, BitVec.getLsbD_append, getLsbD_ofBool]
  split_ifs <;> first | omega | (simp; done) | rfl | (simp; omega)

end Sys2Proof
end

