-- ==== Sys2Proof/Laws/Cells.lean ====
section
/-! SUPPORT. The laws of sparse storage: reading after writing, and the canonical form. -/

namespace Sys2Proof.Machine

variable {α : Type}

@[simp] theorem cellsGet_nil (k : Nat) : cellsGet k ([] : List (Nat × α)) = none := rfl

@[simp] theorem cellsGet_put_same (k : Nat) (v : α) (cs : List (Nat × α)) :
    cellsGet k (cellsPut k v cs) = some v := by
  induction cs with
  | nil => simp [cellsPut, cellsGet]
  | cons c cs ih =>
    unfold cellsPut
    split_ifs with h1 h2
    · simp [cellsGet]
    · simp [cellsGet]
    · simp [cellsGet, h2, ih]

theorem cellsGet_put_other {k k' : Nat} (h : k' ≠ k) (v : α) (cs : List (Nat × α)) :
    cellsGet k' (cellsPut k v cs) = cellsGet k' cs := by
  induction cs with
  | nil => simp [cellsPut, cellsGet, h]
  | cons c cs ih =>
    unfold cellsPut
    split_ifs with h1 h2
    · simp [cellsGet, h]
    · subst h2; simp [cellsGet, h]
    · simp only [cellsGet, ih]

@[simp] theorem cellsGet_drop_same (k : Nat) (cs : List (Nat × α)) :
    cellsGet k (cellsDrop k cs) = none := by
  induction cs with
  | nil => rfl
  | cons c cs ih =>
    unfold cellsDrop
    split_ifs with h
    · exact ih
    · simp [cellsGet, h, ih]

theorem cellsGet_drop_other {k k' : Nat} (h : k' ≠ k) (cs : List (Nat × α)) :
    cellsGet k' (cellsDrop k cs) = cellsGet k' cs := by
  induction cs with
  | nil => rfl
  | cons c cs ih =>
    unfold cellsDrop
    split_ifs with h1
    · subst h1; simp [cellsGet, h, ih]
    · simp only [cellsGet, ih]

theorem mem_cellsPut {k : Nat} {v : α} {cs : List (Nat × α)} {c : Nat × α}
    (h : c ∈ cellsPut k v cs) : c = (k, v) ∨ c ∈ cs := by
  induction cs with
  | nil => simpa [cellsPut] using h
  | cons d ds ih =>
    unfold cellsPut at h
    split_ifs at h <;> simp only [List.mem_cons] at h ⊢ <;> tauto

theorem mem_cellsDrop {k : Nat} {cs : List (Nat × α)} {c : Nat × α}
    (h : c ∈ cellsDrop k cs) : c ∈ cs := by
  induction cs with
  | nil => simp [cellsDrop] at h
  | cons d ds ih =>
    unfold cellsDrop at h
    split_ifs at h <;> simp only [List.mem_cons] at h ⊢ <;> tauto

theorem cellsRising_put {cs : List (Nat × α)} (h : cellsRising cs) (k : Nat) (v : α) :
    cellsRising (cellsPut k v cs) := by
  induction cs with
  | nil => simp [cellsPut, cellsRising]
  | cons c cs ih =>
    obtain ⟨hc, hcs⟩ := List.pairwise_cons.mp h
    unfold cellsPut
    split_ifs with h1 h2
    · refine List.pairwise_cons.mpr ⟨fun d hd => ?_, h⟩
      rcases List.mem_cons.mp hd with rfl | hd
      · exact h1
      · exact lt_trans h1 (hc d hd)
    · subst h2
      exact List.pairwise_cons.mpr ⟨hc, hcs⟩
    · refine List.pairwise_cons.mpr ⟨fun d hd => ?_, ih hcs⟩
      rcases mem_cellsPut hd with rfl | hd
      · simp only; omega
      · exact hc d hd

theorem cellsRising_drop {cs : List (Nat × α)} (h : cellsRising cs) (k : Nat) :
    cellsRising (cellsDrop k cs) := by
  induction cs with
  | nil => exact h
  | cons c cs ih =>
    obtain ⟨hc, hcs⟩ := List.pairwise_cons.mp h
    unfold cellsDrop
    split_ifs
    · exact ih hcs
    · exact List.pairwise_cons.mpr ⟨fun d hd => hc d (mem_cellsDrop hd), ih hcs⟩

end Sys2Proof.Machine
end

