-- ==== Sys2Proof/Laws/State.lean ====
section
/-! SUPPORT. What each state operation leaves of each field: one lemma per field per update. -/

namespace Sys2Proof.Machine

variable (s : State)

/-! ### `answer` -/

@[simp] theorem answer_cfg (r : RspWord) : (answer s r).cfg = s.cfg := rfl
@[simp] theorem answer_gen (r : RspWord) : (answer s r).gen = s.gen := rfl
@[simp] theorem answer_decv (r : RspWord) : (answer s r).decv = s.decv := rfl
@[simp] theorem answer_dec (r : RspWord) : (answer s r).dec = s.dec := rfl
@[simp] theorem answer_sel (r : RspWord) : (answer s r).sel = s.sel := rfl
@[simp] theorem answer_errlog (r : RspWord) : (answer s r).errlog = s.errlog := rfl
@[simp] theorem answer_mem (r : RspWord) : (answer s r).mem = s.mem := rfl
@[simp] theorem answer_desc (r : RspWord) : (answer s r).desc = s.desc := rfl
@[simp] theorem answer_cmdIn (r : RspWord) : (answer s r).cmdIn = s.cmdIn := rfl
@[simp] theorem answer_rspOut (r : RspWord) : (answer s r).rspOut = s.rspOut ++ [r] := rfl
@[simp] theorem answer_resets (r : RspWord) : (answer s r).resets = s.resets := rfl

/-! ### `memWrite` -/

@[simp] theorem memWrite_cfg (a : Addr) (v : Byte) : (memWrite s a v).cfg = s.cfg := rfl
@[simp] theorem memWrite_gen (a : Addr) (v : Byte) : (memWrite s a v).gen = s.gen := rfl
@[simp] theorem memWrite_decv (a : Addr) (v : Byte) : (memWrite s a v).decv = s.decv := rfl
@[simp] theorem memWrite_dec (a : Addr) (v : Byte) : (memWrite s a v).dec = s.dec := rfl
@[simp] theorem memWrite_sel (a : Addr) (v : Byte) : (memWrite s a v).sel = s.sel := rfl
@[simp] theorem memWrite_errlog (a : Addr) (v : Byte) : (memWrite s a v).errlog = s.errlog := rfl
@[simp] theorem memWrite_mem (a : Addr) (v : Byte) :
    (memWrite s a v).mem = cellsPut a.toNat v s.mem := rfl
@[simp] theorem memWrite_desc (a : Addr) (v : Byte) : (memWrite s a v).desc = s.desc := rfl
@[simp] theorem memWrite_cmdIn (a : Addr) (v : Byte) : (memWrite s a v).cmdIn = s.cmdIn := rfl
@[simp] theorem memWrite_rspOut (a : Addr) (v : Byte) : (memWrite s a v).rspOut = s.rspOut := rfl
@[simp] theorem memWrite_resets (a : Addr) (v : Byte) : (memWrite s a v).resets = s.resets := rfl

/-! ### `storeShards` -/

@[simp] theorem storeShards_cfg (slots : List Nat) (f : Nat → Nat → Byte) :
    (storeShards s slots f).cfg = s.cfg := rfl
@[simp] theorem storeShards_gen (slots : List Nat) (f : Nat → Nat → Byte) :
    (storeShards s slots f).gen = s.gen := rfl
@[simp] theorem storeShards_decv (slots : List Nat) (f : Nat → Nat → Byte) :
    (storeShards s slots f).decv = s.decv := rfl
@[simp] theorem storeShards_dec (slots : List Nat) (f : Nat → Nat → Byte) :
    (storeShards s slots f).dec = s.dec := rfl
@[simp] theorem storeShards_sel (slots : List Nat) (f : Nat → Nat → Byte) :
    (storeShards s slots f).sel = s.sel := rfl
@[simp] theorem storeShards_errlog (slots : List Nat) (f : Nat → Nat → Byte) :
    (storeShards s slots f).errlog = s.errlog := rfl
@[simp] theorem storeShards_mem (slots : List Nat) (f : Nat → Nat → Byte) :
    (storeShards s slots f).mem = memWrites s.mem (shardWrites slots (shardLen s) f) := rfl
@[simp] theorem storeShards_desc (slots : List Nat) (f : Nat → Nat → Byte) :
    (storeShards s slots f).desc = s.desc := rfl
@[simp] theorem storeShards_cmdIn (slots : List Nat) (f : Nat → Nat → Byte) :
    (storeShards s slots f).cmdIn = s.cmdIn := rfl
@[simp] theorem storeShards_rspOut (slots : List Nat) (f : Nat → Nat → Byte) :
    (storeShards s slots f).rspOut = s.rspOut := rfl
@[simp] theorem storeShards_resets (slots : List Nat) (f : Nat → Nat → Byte) :
    (storeShards s slots f).resets = s.resets := rfl

/-! ### `setDesc` -/

@[simp] theorem setDesc_cfg (slot : Slot) (pres : Bool) (len : Half) :
    (setDesc s slot pres len).cfg = s.cfg := rfl
@[simp] theorem setDesc_gen (slot : Slot) (pres : Bool) (len : Half) :
    (setDesc s slot pres len).gen = s.gen := rfl
@[simp] theorem setDesc_decv (slot : Slot) (pres : Bool) (len : Half) :
    (setDesc s slot pres len).decv = s.decv := rfl
@[simp] theorem setDesc_dec (slot : Slot) (pres : Bool) (len : Half) :
    (setDesc s slot pres len).dec = s.dec := rfl
@[simp] theorem setDesc_sel (slot : Slot) (pres : Bool) (len : Half) :
    (setDesc s slot pres len).sel = s.sel := rfl
@[simp] theorem setDesc_errlog (slot : Slot) (pres : Bool) (len : Half) :
    (setDesc s slot pres len).errlog = s.errlog := rfl
@[simp] theorem setDesc_mem (slot : Slot) (pres : Bool) (len : Half) :
    (setDesc s slot pres len).mem = s.mem := rfl
@[simp] theorem setDesc_desc (slot : Slot) (pres : Bool) (len : Half) :
    (setDesc s slot pres len).desc = putDesc s.desc slot ⟨pres, len⟩ := rfl
@[simp] theorem setDesc_cmdIn (slot : Slot) (pres : Bool) (len : Half) :
    (setDesc s slot pres len).cmdIn = s.cmdIn := rfl
@[simp] theorem setDesc_rspOut (slot : Slot) (pres : Bool) (len : Half) :
    (setDesc s slot pres len).rspOut = s.rspOut := rfl
@[simp] theorem setDesc_resets (slot : Slot) (pres : Bool) (len : Half) :
    (setDesc s slot pres len).resets = s.resets := rfl

/-! ### `markPresent` -/

@[simp] theorem markPresent_cfg (slots : List Nat) : (markPresent s slots).cfg = s.cfg := rfl
@[simp] theorem markPresent_gen (slots : List Nat) : (markPresent s slots).gen = s.gen := rfl
@[simp] theorem markPresent_decv (slots : List Nat) : (markPresent s slots).decv = s.decv := rfl
@[simp] theorem markPresent_dec (slots : List Nat) : (markPresent s slots).dec = s.dec := rfl
@[simp] theorem markPresent_sel (slots : List Nat) : (markPresent s slots).sel = s.sel := rfl
@[simp] theorem markPresent_errlog (slots : List Nat) :
    (markPresent s slots).errlog = s.errlog := rfl
@[simp] theorem markPresent_mem (slots : List Nat) : (markPresent s slots).mem = s.mem := rfl
@[simp] theorem markPresent_desc (slots : List Nat) :
    (markPresent s slots).desc = slots.foldl (fun d p => putDesc d (slotOf p) ⟨true, s.cfg.l⟩) s.desc := rfl
@[simp] theorem markPresent_cmdIn (slots : List Nat) : (markPresent s slots).cmdIn = s.cmdIn := rfl
@[simp] theorem markPresent_rspOut (slots : List Nat) :
    (markPresent s slots).rspOut = s.rspOut := rfl
@[simp] theorem markPresent_resets (slots : List Nat) :
    (markPresent s slots).resets = s.resets := rfl

/-! ### `present` -/

@[simp] theorem present_cfg (w : CmdWord) : (present s w).cfg = s.cfg := rfl
@[simp] theorem present_gen (w : CmdWord) : (present s w).gen = s.gen := rfl
@[simp] theorem present_decv (w : CmdWord) : (present s w).decv = s.decv := rfl
@[simp] theorem present_dec (w : CmdWord) : (present s w).dec = s.dec := rfl
@[simp] theorem present_sel (w : CmdWord) : (present s w).sel = s.sel := rfl
@[simp] theorem present_errlog (w : CmdWord) : (present s w).errlog = s.errlog := rfl
@[simp] theorem present_mem (w : CmdWord) : (present s w).mem = s.mem := rfl
@[simp] theorem present_desc (w : CmdWord) : (present s w).desc = s.desc := rfl
@[simp] theorem present_cmdIn (w : CmdWord) : (present s w).cmdIn = .command w :: s.cmdIn := rfl
@[simp] theorem present_rspOut (w : CmdWord) : (present s w).rspOut = s.rspOut := rfl
@[simp] theorem present_resets (w : CmdWord) : (present s w).resets = s.resets := rfl

end Sys2Proof.Machine
end

