-- ==== Sys2Proof/Laws/Memory.lean ====
section
/-! SUPPORT. The laws of the shard store and of the descriptors: reading after writing, and that every
operation keeps the canonical form. -/

namespace Sys2Proof.Machine

/-! ### Addresses (R41) -/

/-- `{slot, off}` read as a number is `slot * 65536 + off` (R41). -/
theorem addrOf_toNat (slot : Slot) (off : Half) :
    (addrOf slot off).toNat = slot.toNat * 65536 + off.toNat := by
  have h := off.isLt
  simp only [addrOf, BitVec.toNat_append]
  rw [← Nat.shiftLeft_add_eq_or_of_lt h, Nat.shiftLeft_eq]

/-- Two different (slot, offset) pairs never alias (R41). -/
theorem addrOf_inj {slot slot' : Slot} {off off' : Half}
    (h : (addrOf slot off).toNat = (addrOf slot' off').toNat) : slot = slot' ∧ off = off' := by
  rw [addrOf_toNat, addrOf_toNat] at h
  have h1 := off.isLt
  have h2 := off'.isLt
  exact ⟨BitVec.eq_of_toNat_eq (by omega), BitVec.eq_of_toNat_eq (by omega)⟩

@[simp] theorem slotOf_toNat {i : Nat} (h : i < 256) : (slotOf i).toNat = i := by
  simp [slotOf, Nat.mod_eq_of_lt h]

@[simp] theorem offOf_toNat {k : Nat} (h : k < 65536) : (offOf k).toNat = k := by
  simp [offOf, Nat.mod_eq_of_lt h]

@[simp] theorem slotOf_self (slot : Slot) : slotOf slot.toNat = slot := by simp [slotOf]

@[simp] theorem offOf_self (off : Half) : offOf off.toNat = off := by simp [offOf]

/-! ### Reading after writing -/

@[simp] theorem readShard_answer (s : State) (r : RspWord) (slot : Slot) (off : Half) :
    readShard (answer s r) slot off = readShard s slot off := rfl

/-- `SH` is what a byte read depends on, with the number of resets. -/
theorem readShard_congr {s t : State} (hm : t.mem = s.mem) (hr : t.resets = s.resets)
    (slot : Slot) (off : Half) : readShard t slot off = readShard s slot off := by
  simp only [readShard, memRead, hm, hr]

@[simp] theorem readShard_memWrite_same (s : State) (slot : Slot) (off : Half) (v : Byte) :
    readShard (memWrite s (addrOf slot off) v) slot off = v := by
  simp [readShard, memRead]

theorem readShard_memWrite_other {slot slot' : Slot} {off off' : Half}
    (h : ¬(slot' = slot ∧ off' = off)) (s : State) (v : Byte) :
    readShard (memWrite s (addrOf slot off) v) slot' off' = readShard s slot' off' := by
  have hne : (addrOf slot' off').toNat ≠ (addrOf slot off).toNat := fun e => h (addrOf_inj e)
  simp [readShard, memRead, cellsGet_put_other hne]

/-- A byte no write of the list goes to is as before. -/
theorem cellsGet_memWrites_other {a : Addr} {ws : List (Addr × Byte)}
    (h : ∀ w ∈ ws, w.1 ≠ a) (mem : List Host.Cell) :
    cellsGet a.toNat (memWrites mem ws) = cellsGet a.toNat mem := by
  induction ws generalizing mem with
  | nil => rfl
  | cons w ws ih =>
    have hw : a.toNat ≠ w.1.toNat := fun e =>
      h w List.mem_cons_self (BitVec.eq_of_toNat_eq e.symm)
    have := ih (fun x hx => h x (List.mem_cons_of_mem _ hx)) (cellsPut w.1.toNat w.2 mem)
    simpa [memWrites, cellsGet_put_other hw] using this

/-- A byte that writes of the list go to, all with the same value, has that value. -/
theorem cellsGet_memWrites_same {a : Addr} {v : Byte} {ws : List (Addr × Byte)}
    (hex : ∃ w ∈ ws, w.1 = a) (hall : ∀ w ∈ ws, w.1 = a → w.2 = v) (mem : List Host.Cell) :
    cellsGet a.toNat (memWrites mem ws) = some v := by
  induction ws generalizing mem with
  | nil => simp at hex
  | cons w ws ih =>
    by_cases hlater : ∃ x ∈ ws, x.1 = a
    · exact ih hlater (fun x hx => hall x (List.mem_cons_of_mem _ hx)) (cellsPut w.1.toNat w.2 mem)
    · have hw : w.1 = a := by
        obtain ⟨x, hx, rfl⟩ := hex
        rcases List.mem_cons.mp hx with rfl | hx
        · rfl
        · exact absurd ⟨x, hx, rfl⟩ hlater
      have h1 := cellsGet_memWrites_other (a := a) (ws := ws)
        (fun x hx e => hlater ⟨x, hx, e⟩) (cellsPut w.1.toNat w.2 mem)
      have h2 := hall w List.mem_cons_self hw
      subst hw h2
      simpa [memWrites] using h1

theorem mem_shardWrites {slots : List Nat} {len : Nat} {f : Nat → Nat → Byte} {w : Addr × Byte} :
    w ∈ shardWrites slots len f ↔
      ∃ p ∈ slots, ∃ k < len, w = (addrOf (slotOf p) (offOf k), f p k) := by
  simp [shardWrites, eq_comm]

/-- What `storeShards` does to a byte inside the slots and lengths it stores to. -/
theorem readShard_storeShards_inside {s : State} {slots : List Nat} {f : Nat → Nat → Byte}
    (hslots : ∀ p ∈ slots, p < 256) {p k : Nat} (hp : p ∈ slots) (hk : k < shardLen s) :
    readShard (storeShards s slots f) (slotOf p) (offOf k) = f p k := by
  have hl : shardLen s < 65536 := s.cfg.l.isLt
  have hget : cellsGet (addrOf (slotOf p) (offOf k)).toNat (storeShards s slots f).mem =
      some (f p k) := by
    refine cellsGet_memWrites_same ?_ ?_ _
    · exact ⟨_, mem_shardWrites.mpr ⟨p, hp, k, hk, rfl⟩, rfl⟩
    · intro w hw e
      obtain ⟨p', hp', k', hk', rfl⟩ := mem_shardWrites.mp hw
      obtain ⟨e1, e2⟩ := addrOf_inj (congrArg BitVec.toNat e)
      have h1 := congrArg BitVec.toNat e1
      have h2 := congrArg BitVec.toNat e2
      rw [slotOf_toNat (hslots p' hp'), slotOf_toNat (hslots p hp)] at h1
      rw [offOf_toNat (by omega), offOf_toNat (by omega)] at h2
      subst h1 h2
      rfl
  simp only [readShard, memRead, hget, Option.getD_some]

/-- What `storeShards` leaves alone: every byte outside the slots and lengths it stores to. -/
theorem readShard_storeShards_outside {s : State} {slots : List Nat} {f : Nat → Nat → Byte}
    (hslots : ∀ p ∈ slots, p < 256) {slot : Slot} {off : Half}
    (h : ¬(slot.toNat ∈ slots ∧ off.toNat < shardLen s)) :
    readShard (storeShards s slots f) slot off = readShard s slot off := by
  have hl : shardLen s < 65536 := s.cfg.l.isLt
  have hget : cellsGet (addrOf slot off).toNat (storeShards s slots f).mem =
      cellsGet (addrOf slot off).toNat s.mem := by
    refine cellsGet_memWrites_other ?_ _
    intro w hw e
    obtain ⟨p, hp, k, hk, rfl⟩ := mem_shardWrites.mp hw
    obtain ⟨rfl, rfl⟩ := addrOf_inj (congrArg BitVec.toNat e)
    rw [slotOf_toNat (hslots p hp), offOf_toNat (by omega)] at h
    exact h ⟨hp, hk⟩
  simp only [readShard, memRead, hget, storeShards_resets]

/-! ### Descriptors -/

@[simp] theorem descOf_putDesc_same (descs : List (Nat × Desc)) (slot : Slot) (d : Desc) :
    descOf (putDesc descs slot d) slot = d := by
  unfold putDesc descOf
  split_ifs with h
  · simp [h]
  · simp

theorem descOf_putDesc_other {slot slot' : Slot} (h : slot' ≠ slot) (descs : List (Nat × Desc))
    (d : Desc) : descOf (putDesc descs slot d) slot' = descOf descs slot' := by
  have hne : slot'.toNat ≠ slot.toNat := fun e => h (BitVec.eq_of_toNat_eq e)
  unfold putDesc descOf
  split_ifs
  · rw [cellsGet_drop_other hne]
  · rw [cellsGet_put_other hne]

/-- What `markPresent` does to every descriptor. -/
theorem descOf_markPresent {s : State} {slots : List Nat} (hslots : ∀ p ∈ slots, p < 256)
    (slot : Slot) :
    descOf (markPresent s slots).desc slot =
      if slot.toNat ∈ slots then ⟨true, s.cfg.l⟩ else descOf s.desc slot := by
  suffices H : ∀ (ps : List Nat) (descs : List (Nat × Desc)), (∀ p ∈ ps, p < 256) →
      descOf (ps.foldl (fun d p => putDesc d (slotOf p) ⟨true, s.cfg.l⟩) descs) slot =
        if slot.toNat ∈ ps then ⟨true, s.cfg.l⟩ else descOf descs slot from H slots s.desc hslots
  intro ps
  induction ps with
  | nil => intro descs _; simp
  | cons p ps ih =>
    intro descs hps
    have hp := hps p List.mem_cons_self
    rw [List.foldl_cons, ih _ (fun q hq => hps q (List.mem_cons_of_mem _ hq))]
    by_cases hlater : slot.toNat ∈ ps
    · simp [hlater]
    · by_cases heq : slot = slotOf p
      · subst heq
        simp [slotOf_toNat hp]
      · have hne : slot.toNat ≠ p := fun e => heq (by rw [← e, slotOf_self])
        simp [hlater, hne, descOf_putDesc_other heq]

/-! ### The canonical forms -/

theorem Memory.wf_reset : Memory.wf State.reset.mem := by decide

theorem Memory.wf_put {mem : List Host.Cell} (h : Memory.wf mem) (a : Addr) (v : Byte) :
    Memory.wf (cellsPut a.toNat v mem) := by
  refine ⟨cellsRising_put h.1 _ _, fun c hc => ?_⟩
  rcases mem_cellsPut hc with rfl | hc
  · exact a.isLt
  · exact h.2 c hc

theorem Memory.wf_memWrites {mem : List Host.Cell} (h : Memory.wf mem) (ws : List (Addr × Byte)) :
    Memory.wf (memWrites mem ws) := by
  induction ws generalizing mem with
  | nil => exact h
  | cons w ws ih => exact ih (Memory.wf_put h w.1 w.2)

theorem Memory.wf_memWrite {s : State} (h : Memory.wf s.mem) (a : Addr) (v : Byte) :
    Memory.wf (memWrite s a v).mem := Memory.wf_put h a v

theorem Memory.wf_storeShards {s : State} (h : Memory.wf s.mem) (slots : List Nat)
    (f : Nat → Nat → Byte) : Memory.wf (storeShards s slots f).mem := Memory.wf_memWrites h _

theorem Descs.wf_reset : Descs.wf State.reset.desc := by
  simp [Descs.wf, cellsRising, State.reset]

theorem Descs.wf_put {descs : List (Nat × Desc)} (h : Descs.wf descs) (slot : Slot) (d : Desc) :
    Descs.wf (putDesc descs slot d) := by
  unfold putDesc
  split_ifs with hd
  · exact ⟨cellsRising_drop h.1 _, fun c hc => h.2 c (mem_cellsDrop hc)⟩
  · refine ⟨cellsRising_put h.1 _ _, fun c hc => ?_⟩
    rcases mem_cellsPut hc with rfl | hc
    · exact ⟨slot.isLt, hd⟩
    · exact h.2 c hc

theorem Descs.wf_setDesc {s : State} (h : Descs.wf s.desc) (slot : Slot) (pres : Bool)
    (len : Half) : Descs.wf (setDesc s slot pres len).desc := Descs.wf_put h _ _

theorem Descs.wf_markPresent {s : State} (h : Descs.wf s.desc) (slots : List Nat) :
    Descs.wf (markPresent s slots).desc := by
  suffices H : ∀ (ps : List Nat) (descs : List (Nat × Desc)), Descs.wf descs →
      Descs.wf (ps.foldl (fun d p => putDesc d (slotOf p) ⟨true, s.cfg.l⟩) descs) from
    H slots s.desc h
  intro ps
  induction ps with
  | nil => intro descs hd; exact hd
  | cons p ps ih => intro descs hd; exact ih _ (Descs.wf_put hd _ _)

end Sys2Proof.Machine
end

