-- ==== Sys2Proof/Laws/Answering.lean ====
section
/-! SUPPORT. What answering a command does: the response word's fields, and one lemma each for a result
and for an error. -/

namespace Sys2Proof.Machine

theorem getLsbD_responseWord (err : Byte) (p : Bool) (val : Half) (i : Nat) :
    (responseWord err p val).getLsbD i =
      if i < 16 then val.getLsbD i else if i = 16 then p
      else if i < 24 then false else err.getLsbD (i - 24) := by
  simp only [responseWord, BitVec.getLsbD_append, getLsbD_ofBool]
  split_ifs <;> first | omega | (simp; done) | rfl | (simp; omega)

@[simp] theorem rspErr_responseWord (err : Byte) (p : Bool) (val : Half) :
    rspErr (responseWord err p val) = err := by
  apply BitVec.eq_of_getLsbD_eq
  intro i hi
  simp only [rspErr, BitVec.getLsbD_extractLsb', getLsbD_responseWord, hi, decide_true, Bool.true_and]
  split_ifs <;> first | omega | simp

@[simp] theorem rspReserved_responseWord (err : Byte) (p : Bool) (val : Half) :
    rspReserved (responseWord err p val) = 0 := by
  apply BitVec.eq_of_getLsbD_eq
  intro i hi
  simp only [rspReserved, BitVec.getLsbD_extractLsb', getLsbD_responseWord, hi, decide_true,
    Bool.true_and]
  split_ifs <;> first | omega | simp

@[simp] theorem rspP_responseWord (err : Byte) (p : Bool) (val : Half) :
    rspP (responseWord err p val) = p := by
  simp only [rspP, getLsbD_responseWord]
  simp

@[simp] theorem rspVal_responseWord (err : Byte) (p : Bool) (val : Half) :
    rspVal (responseWord err p val) = val := by
  apply BitVec.eq_of_getLsbD_eq
  intro i hi
  simp only [rspVal, BitVec.getLsbD_extractLsb', getLsbD_responseWord, hi, decide_true,
    Bool.true_and]
  split_ifs <;> first | omega | simp

/-- What `respondWith` does: it answers without error, and changes nothing but the responses. -/
theorem answers_respondWith (p : Bool) (val : Half) (s : State) :
    Answers (respondWith p val s) s p val :=
  ⟨responseWord 0 p val, rfl, by simp, by simp, by simp, by simp⟩

/-- What `respond` does. -/
theorem answers_respond (val : Half) (s : State) : Answers (respond val s) s false val :=
  answers_respondWith false val s

/-- What `raise` does: it answers with the error's code, sets its bit of `ERRLOG`, and changes nothing
else (R163). -/
theorem fails_raise (e : ErrorKind) (s : State) : Fails (raise e s) s (errorCode e).toNat := by
  refine ⟨responseWord (errorCode e) false 0, ?_, by simp, by simp, by simp, by simp⟩
  have : ∀ e : ErrorKind, (1 <<< (errorCode e).toNat : BitVec 9) = BitVec.twoPow 9 (errorCode e).toNat := by
    intro e; cases e <;> decide
  simp only [raise, answer, logError, this]

/-- The same with the code as a number. -/
theorem fails_raise_code {e : ErrorKind} {c : Nat} (h : (errorCode e).toNat = c) (s : State) :
    Fails (raise e s) s c := h ▸ fails_raise e s

end Sys2Proof.Machine
end

