-- ==== Sys2Proof/Laws/Matrices.lean ====
section
/-! SUPPORT. The laws of the matrix constructors, of field sums, and of the list of present slots. -/

namespace Sys2Proof.Machine

/-! ### Field sums (R8) -/

/-- A field sum depends on its terms below `n` only. -/
theorem xorSum_congr {n : Nat} {f g : Nat → Byte} (h : ∀ j < n, f j = g j) :
    xorSum n f = xorSum n g := by
  induction n with
  | zero => rfl
  | succ n ih =>
    simp only [xorSum, ih (fun j hj => h j (by omega)), h n (by omega)]

/-! ### Matrices built by their entries -/

@[simp] theorem buildMat_length (r c : Nat) (f : Nat → Nat → Byte) : (buildMat r c f).length = r := by
  simp [buildMat]

theorem matRow_buildMat {r i : Nat} (hi : i < r) (c : Nat) (f : Nat → Nat → Byte) :
    matRow (buildMat r c f) i = (List.range c).map (f i) := by
  simp [matRow, buildMat, hi]

theorem entry_buildMat {r c i j : Nat} (hi : i < r) (hj : j < c) (f : Nat → Nat → Byte) :
    entry (buildMat r c f) i j = f i j := by
  simp [entry, matRow_buildMat hi, hj]

/-- A built matrix is determined by its entries. -/
theorem buildMat_congr {r c : Nat} {f g : Nat → Nat → Byte}
    (h : ∀ i < r, ∀ j < c, f i j = g i j) : buildMat r c f = buildMat r c g := by
  refine List.map_congr_left fun i hi => List.map_congr_left fun j hj => ?_
  exact h i (List.mem_range.mp hi) j (List.mem_range.mp hj)

/-! ### Rows and entries of the scratch operations (R106) -/

theorem length_addScaled (f : Byte) (src row : List Byte) :
    (addScaled f src row).length = min row.length src.length := by
  simp [addScaled]

@[simp] theorem length_scaleRow (x : Byte) (row : List Byte) :
    (scaleRow x row).length = row.length := by
  simp [scaleRow]

@[simp] theorem length_swapRows (p c : Nat) (W : Mat) : (swapRows p c W).length = W.length := by
  simp [swapRows]

@[simp] theorem length_clearColumn (c : Nat) (W : Mat) : (clearColumn c W).length = W.length := by
  simp [clearColumn]

/-- What `findPivot` answers: a row at or below the diagonal whose entry is not 0, with only zeros
above it (R106). -/
theorem findPivot_some {k c p : Nat} {W : Mat} (h : findPivot k c W = some p) :
    c ≤ p ∧ p < k ∧ entry W p c ≠ 0 := by
  have h1 := List.find?_some h
  have h2 := List.mem_range'_1.mp (List.mem_of_find?_eq_some h)
  exact ⟨h2.1, by omega, by simpa using h1⟩

/-- When `findPivot` answers nothing, the column is zero from the diagonal on (R106). -/
theorem findPivot_none {k c : Nat} {W : Mat} (h : findPivot k c W = none) :
    ∀ p, c ≤ p → p < k → entry W p c = 0 := by
  intro p hc hp
  have := List.find?_eq_none.mp h p (List.mem_range'_1.mpr ⟨hc, by omega⟩)
  simpa using this

/-! ### The present slots (R107) -/

/-- The present slots are the slots of the present indices. -/
theorem presentSlots_eq (s : State) :
    presentSlots (numData s + numParity s) (isPresent s) = (presentIndices s).map slotOf := by
  simp [presentSlots, presentIndices, List.filter_map, Function.comp_def]

/-- What the decoding-matrix unit answers, by cases (R107). -/
theorem decodingMatrix_eq (s : State) :
    decodingMatrix s =
      if (presentIndices s).length < numData s then .error .insufficientShards
      else
        match invert (numData s) (selectedRows (numData s) s.gen (selectedSlots s)) with
        | none => .error .singularMatrix
        | some dec => .ok (selectedSlots s, dec) := by
  simp only [decodingMatrix, decMat, presentSlots_eq, List.length_map, selectedSlots, List.map_take] <;> rfl

theorem mem_paritySlots {s : State} {p : Nat} :
    p ∈ paritySlots s ↔ numData s ≤ p ∧ p < numData s + numParity s := List.mem_range'_1

theorem mem_erasedData {s : State} {d : Nat} :
    d ∈ erasedData s ↔ d < numData s ∧ isPresent s (slotOf d) = false := by
  simp [erasedData]

theorem mem_erasedParity {s : State} {p : Nat} :
    p ∈ erasedParity s ↔
      (numData s ≤ p ∧ p < numData s + numParity s) ∧ isPresent s (slotOf p) = false := by
  simp [erasedParity, mem_paritySlots]

end Sys2Proof.Machine
end

