-- ==== Sys2Proof/Laws/Commands.lean ====
section
/-! SUPPORT. What a command can do, said once: every command either raises an error, or answers in the
state that its effect gives. Statements about all commands are derived from this. -/

namespace Sys2Proof.Machine

/-- The state that a command leaves when it ends without error, but for its response: which conditions
held, and what was written. A command that writes nothing leaves the state. -/
def CommandEffect (i : Instr) (s s' : State) : Prop :=
  match i with
  | .config kind n m len =>
    LegalParameters n.toNat m.toNat ∧
      s' = { s with
        cfg := ⟨true, kind, n.setWidth 9, m.setWidth 9, len⟩
        gen := generator kind n.toNat m.toNat
        decv := false }
  | .mkdec =>
    s.cfg.valid = true ∧ ∃ sel dec, decodingMatrix s = .ok (sel, dec) ∧
      s' = { s with sel := sel, dec := dec, decv := true }
  | .shwr slot off val => s' = memWrite s (addrOf slot off) val
  | .shset slot len pres => s' = setDesc s slot pres len
  | .encode cnt => EncodeReady cnt s ∧ s' = encodeEffect s
  | .recon mode cnt =>
    ReconShapeOk cnt s ∧ ∃ sel dec, decodingMatrix s = .ok (sel, dec) ∧
      s' = reconEffect mode sel dec s
  | .nop | .gfadd _ _ | .gfmul _ _ | .gfdiv _ _ | .gfinv _ | .csrrd _ | .genrd _ _ | .decrd _ _
  | .selrd _ | .shrd _ _ | .shget _ => s' = s

/-- What every effect leaves alone: `ERRLOG` (R16), the host's channels, the count of resets. -/
structure LeavesChannels (s s' : State) : Prop where
  errlog : s'.errlog = s.errlog
  cmdIn : s'.cmdIn = s.cmdIn
  rspOut : s'.rspOut = s.rspOut
  resets : s'.resets = s.resets

theorem encodeReady_iff (cnt : Half) (s : State) :
    EncodeReady cnt s ↔ s.cfg.valid = true ∧ cnt.toNat = numData s ∧ encodeLengthsDiffer s = false := by
  simp [EncodeReady, encodeLengthsDiffer]

theorem reconShapeOk_iff (cnt : Half) (s : State) :
    ReconShapeOk cnt s ↔ s.cfg.valid = true ∧ cnt.toNat = numData s + numParity s ∧
      reconLengthsDiffer s = false := by
  simp [ReconShapeOk, reconLengthsDiffer]

theorem exec_encode_ready {cnt : Half} {s : State} (h : EncodeReady cnt s) :
    exec (.encode cnt) s = respond 0 (encodeEffect s) := by
  obtain ⟨h1, h2, h3⟩ := (encodeReady_iff cnt s).mp h
  simp only [exec, execEncode, h1, h2, h3]
  simp

theorem exec_recon_ready {mode : Mode} {cnt : Half} {s : State} {sel : List Slot} {dec : Mat}
    (h : ReconShapeOk cnt s) (hd : decodingMatrix s = .ok (sel, dec)) :
    exec (.recon mode cnt) s = respond 0 (reconEffect mode sel dec s) := by
  obtain ⟨h1, h2, h3⟩ := (reconShapeOk_iff cnt s).mp h
  simp only [exec, execRecon, h1, h2, h3, hd]
  simp

theorem badParameters_iff (n m : Half) :
    badParameters n m = false ↔ LegalParameters n.toNat m.toNat := by
  simp only [badParameters, LegalParameters, Bool.or_eq_false_iff, decide_eq_false_iff_not]
  omega

/-- The decoding-matrix unit fails in two ways only (R107). -/
theorem decodingMatrix_error {s : State} {e : ErrorKind} (h : decodingMatrix s = .error e) :
    e = .insufficientShards ∨ e = .singularMatrix := by
  rw [decodingMatrix_eq] at h
  split_ifs at h
  · left; simpa using h.symm
  · split at h
    · right; simpa using h.symm
    · simp at h

theorem leavesChannels_refl (s : State) : LeavesChannels s s := ⟨rfl, rfl, rfl, rfl⟩

theorem CommandEffect.leavesChannels {i : Instr} {s s' : State} (h : CommandEffect i s s') :
    LeavesChannels s s' := by
  cases i <;> simp only [CommandEffect] at h
  case config => obtain ⟨-, rfl⟩ := h; exact ⟨rfl, rfl, rfl, rfl⟩
  case mkdec => obtain ⟨-, sel, dec, -, rfl⟩ := h; exact ⟨rfl, rfl, rfl, rfl⟩
  case encode => obtain ⟨-, rfl⟩ := h; exact ⟨rfl, rfl, rfl, rfl⟩
  case recon mode cnt =>
    obtain ⟨-, sel, dec, -, rfl⟩ := h
    cases mode <;> exact ⟨rfl, rfl, rfl, rfl⟩
  all_goals subst h; exact ⟨rfl, rfl, rfl, rfl⟩

/-- What a command can do: raise one of its errors, or answer in the state of its effect. -/
theorem exec_cases (i : Instr) (s : State) :
    (∃ e, exec i s = raise e s ∧ (errorCode e).toNat ∈ possibleErrors i) ∨
    (∃ s' p val, exec i s = respondWith p val s' ∧ CommandEffect i s s' ∧
      (p = true → ∃ slot, i = .shget slot) ∧ (hasResult i = false → val = 0)) := by
  cases i with
  | nop => exact .inr ⟨s, false, 0, rfl, rfl, by simp, by simp⟩
  | gfadd x y => exact .inr ⟨s, false, _, rfl, rfl, by simp, by simp [hasResult]⟩
  | gfmul x y => exact .inr ⟨s, false, _, rfl, rfl, by simp, by simp [hasResult]⟩
  | gfdiv x y =>
    simp only [exec, execGfdiv]
    split
    · exact .inl ⟨.domain, rfl, by simp [errorCode, possibleErrors]⟩
    · exact .inr ⟨s, false, _, rfl, rfl, by simp, by simp [hasResult]⟩
  | gfinv x =>
    simp only [exec, execGfinv]
    split
    · exact .inl ⟨.domain, rfl, by simp [errorCode, possibleErrors]⟩
    · exact .inr ⟨s, false, _, rfl, rfl, by simp, by simp [hasResult]⟩
  | config kind n m len =>
    simp only [exec, execConfig]
    split_ifs with h
    · exact .inl ⟨.parameter, rfl, by simp [errorCode, possibleErrors]⟩
    · exact .inr ⟨_, false, 0, rfl, ⟨(badParameters_iff n m).mp (by simpa using h), rfl⟩, by simp, by simp⟩
  | csrrd sel =>
    simp only [exec, execCsrrd]
    split
    · exact .inl ⟨.range, rfl, by simp [errorCode, possibleErrors]⟩
    · exact .inr ⟨s, false, _, rfl, rfl, by simp, by simp [hasResult]⟩
  | genrd row col =>
    simp only [exec, execGenrd]
    split_ifs
    · exact .inl ⟨.sequence, rfl, by simp [errorCode, possibleErrors]⟩
    · exact .inl ⟨.range, rfl, by simp [errorCode, possibleErrors]⟩
    · exact .inr ⟨s, false, _, rfl, rfl, by simp, by simp [hasResult]⟩
  | mkdec =>
    simp only [exec, execMkdec]
    split_ifs with hv
    · exact .inl ⟨.sequence, rfl, by simp [errorCode, possibleErrors]⟩
    · split
      · rename_i e he
        rcases decodingMatrix_error he with rfl | rfl
        · exact .inl ⟨.insufficientShards, rfl, by simp [errorCode, possibleErrors]⟩
        · exact .inl ⟨.singularMatrix, rfl, by simp [errorCode, possibleErrors]⟩
      · rename_i sel dec hd
        exact .inr ⟨_, false, 0, rfl, ⟨by simpa using hv, sel, dec, hd, rfl⟩, by simp, by simp⟩
  | decrd row col =>
    simp only [exec, execDecrd]
    split_ifs
    · exact .inl ⟨.sequence, rfl, by simp [errorCode, possibleErrors]⟩
    · exact .inl ⟨.range, rfl, by simp [errorCode, possibleErrors]⟩
    · exact .inr ⟨s, false, _, rfl, rfl, by simp, by simp [hasResult]⟩
  | selrd k =>
    simp only [exec, execSelrd]
    split_ifs
    · exact .inl ⟨.sequence, rfl, by simp [errorCode, possibleErrors]⟩
    · exact .inl ⟨.range, rfl, by simp [errorCode, possibleErrors]⟩
    · exact .inr ⟨s, false, _, rfl, rfl, by simp, by simp [hasResult]⟩
  | shwr slot off val => exact .inr ⟨_, false, 0, rfl, rfl, by simp, by simp⟩
  | shrd slot off => exact .inr ⟨s, false, _, rfl, rfl, by simp, by simp [hasResult]⟩
  | shset slot len pres => exact .inr ⟨_, false, 0, rfl, rfl, by simp, by simp⟩
  | shget slot => exact .inr ⟨s, _, _, rfl, rfl, fun _ => ⟨slot, rfl⟩, by simp [hasResult]⟩
  | encode cnt =>
    simp only [exec, execEncode]
    split_ifs with hv hc hl
    · exact .inl ⟨.sequence, rfl, by simp [errorCode, possibleErrors]⟩
    · exact .inl ⟨.shape, rfl, by simp [errorCode, possibleErrors]⟩
    · exact .inl ⟨.shape, rfl, by simp [errorCode, possibleErrors]⟩
    · refine .inr ⟨_, false, 0, rfl, ⟨(encodeReady_iff cnt s).mpr ⟨by simpa using hv, ?_, ?_⟩, rfl⟩,
        by simp, by simp⟩
      · simpa using hc
      · simpa using hl
  | recon mode cnt =>
    simp only [exec, execRecon]
    split_ifs with hv hc hl
    · exact .inl ⟨.sequence, rfl, by simp [errorCode, possibleErrors]⟩
    · exact .inl ⟨.shape, rfl, by simp [errorCode, possibleErrors]⟩
    · exact .inl ⟨.shape, rfl, by simp [errorCode, possibleErrors]⟩
    · split
      · rename_i e he
        rcases decodingMatrix_error he with rfl | rfl
        · exact .inl ⟨.insufficientShards, rfl, by simp [errorCode, possibleErrors]⟩
        · exact .inl ⟨.singularMatrix, rfl, by simp [errorCode, possibleErrors]⟩
      · rename_i sel dec hd
        refine .inr ⟨_, false, 0, rfl, ⟨(reconShapeOk_iff cnt s).mpr ⟨by simpa using hv, ?_, ?_⟩, sel, dec, hd, rfl⟩,
          by simp, by simp⟩
        · simpa using hc
        · simpa using hl

/-- The two ways a step ends when the host presents a command word (R65, R66). -/
theorem step_command {s : State} {w : CmdWord} {rest : List HostEvent}
    (h : s.cmdIn = .command w :: rest) :
    (∃ i, decode w = .ok i ∧ step s = exec i { s with cmdIn := rest }) ∨
    (∃ e, decode w = .error e ∧ step s = raise .illegalCommand { s with cmdIn := rest }) := by
  cases hd : decode w with
  | ok i => exact .inl ⟨i, rfl, by simp only [step, takeEvent, h, hd]⟩
  | error e => exact .inr ⟨e, rfl, by simp only [step, takeEvent, h, hd, answerIllegal]⟩

end Sys2Proof.Machine
end

