-- ==== Sys2Proof/Laws/PerInstr.lean ====
section
/-! SUPPORT. The per-instruction family `EncodedWord`: the encoding of an instruction is a legal command
word, the one its row of the opcode table describes (R64, R65). -/

namespace Sys2Proof.Laws.EncodedWord

/-- The instruction is well formed and its word matches a row of the opcode table. -/
def Statement (i : Instr) : Prop := wellFormed i = true ∧ wellFormedWord (Sys2Proof.encode i) = true

/-- A word that agrees with a row of the table wherever the row's mask has a 1 is well formed. -/
theorem of_bits (row : OpcodeRow) (hrow : row ∈ opcodeTable) {w : CmdWord}
    (h : ∀ k < 64, (w.getLsbD k && row.mask.getLsbD k) = row.pattern.getLsbD k) :
    wellFormedWord w = true := by
  refine List.any_eq_true.mpr ⟨row, hrow, ?_⟩
  simp only [OpcodeRow.matchesWord, beq_iff_eq]
  apply BitVec.eq_of_getLsbD_eq
  intro k hk
  rw [BitVec.getLsbD_and, h k hk]

theorem nop : Statement .nop := ⟨rfl, by decide⟩

theorem gfadd (x : Byte) (y : Byte) : Statement (.gfadd x y) := by
  refine ⟨rfl, of_bits ⟨"GFADD", 0x0100000000000000, 0xFF0000FFFFFFFFFF⟩ (by decide) fun k hk => ?_⟩
  simp only [Sys2Proof.encode, getLsbD_packB]
  interval_cases k <;> simp

theorem gfmul (x : Byte) (y : Byte) : Statement (.gfmul x y) := by
  refine ⟨rfl, of_bits ⟨"GFMUL", 0x0200000000000000, 0xFF0000FFFFFFFFFF⟩ (by decide) fun k hk => ?_⟩
  simp only [Sys2Proof.encode, getLsbD_packB]
  interval_cases k <;> simp

theorem gfdiv (x : Byte) (y : Byte) : Statement (.gfdiv x y) := by
  refine ⟨rfl, of_bits ⟨"GFDIV", 0x0300000000000000, 0xFF0000FFFFFFFFFF⟩ (by decide) fun k hk => ?_⟩
  simp only [Sys2Proof.encode, getLsbD_packB]
  interval_cases k <;> simp

theorem gfinv (x : Byte) : Statement (.gfinv x) := by
  refine ⟨rfl, of_bits ⟨"GFINV", 0x0400000000000000, 0xFF00FFFFFFFFFFFF⟩ (by decide) fun k hk => ?_⟩
  simp only [Sys2Proof.encode, getLsbD_packA]
  interval_cases k <;> simp

theorem config (kind : Kind) (n : Half) (m : Half) (len : Half) : Statement (.config kind n m len) := by
  refine ⟨rfl, of_bits ⟨"CONFIG", 0x1000000000000000, 0xFFFE000000000000⟩ (by decide) fun k hk => ?_⟩
  simp only [Sys2Proof.encode, getLsbD_packC]
  interval_cases k <;> simp

theorem csrrd (sel : Byte) : Statement (.csrrd sel) := by
  refine ⟨rfl, of_bits ⟨"CSRRD", 0x1100000000000000, 0xFF00FFFFFFFFFFFF⟩ (by decide) fun k hk => ?_⟩
  simp only [Sys2Proof.encode, getLsbD_packA]
  interval_cases k <;> simp

theorem genrd (row : Byte) (col : Byte) : Statement (.genrd row col) := by
  refine ⟨rfl, of_bits ⟨"GENRD", 0x1200000000000000, 0xFF0000FFFFFFFFFF⟩ (by decide) fun k hk => ?_⟩
  simp only [Sys2Proof.encode, getLsbD_packB]
  interval_cases k <;> simp

theorem mkdec : Statement .mkdec := ⟨rfl, by decide⟩

theorem decrd (row : Byte) (col : Byte) : Statement (.decrd row col) := by
  refine ⟨rfl, of_bits ⟨"DECRD", 0x1400000000000000, 0xFF0000FFFFFFFFFF⟩ (by decide) fun k hk => ?_⟩
  simp only [Sys2Proof.encode, getLsbD_packB]
  interval_cases k <;> simp

theorem selrd (i : Byte) : Statement (.selrd i) := by
  refine ⟨rfl, of_bits ⟨"SELRD", 0x1500000000000000, 0xFF00FFFFFFFFFFFF⟩ (by decide) fun k hk => ?_⟩
  simp only [Sys2Proof.encode, getLsbD_packA]
  interval_cases k <;> simp

theorem shwr (slot : Slot) (off : Half) (val : Byte) : Statement (.shwr slot off val) := by
  refine ⟨rfl, of_bits ⟨"SHWR", 0x2000000000000000, 0xFF00000000FFFFFF⟩ (by decide) fun k hk => ?_⟩
  simp only [Sys2Proof.encode, getLsbD_packS]
  interval_cases k <;> simp

theorem shrd (slot : Slot) (off : Half) : Statement (.shrd slot off) := by
  refine ⟨rfl, of_bits ⟨"SHRD", 0x2100000000000000, 0xFF000000FFFFFFFF⟩ (by decide) fun k hk => ?_⟩
  simp only [Sys2Proof.encode, getLsbD_packS]
  interval_cases k <;> simp

theorem shset (slot : Slot) (len : Half) (pres : Bool) : Statement (.shset slot len pres) := by
  refine ⟨rfl, of_bits ⟨"SHSET", 0x2200000000000000, 0xFF000000FEFFFFFF⟩ (by decide) fun k hk => ?_⟩
  simp only [Sys2Proof.encode, getLsbD_packD]
  interval_cases k <;> simp

theorem shget (slot : Slot) : Statement (.shget slot) := by
  refine ⟨rfl, of_bits ⟨"SHGET", 0x2300000000000000, 0xFF00FFFFFFFFFFFF⟩ (by decide) fun k hk => ?_⟩
  simp only [Sys2Proof.encode, getLsbD_packA]
  interval_cases k <;> simp

theorem encode (cnt : Half) : Statement (.encode cnt) := by
  refine ⟨rfl, of_bits ⟨"ENCODE", 0x3000000000000000, 0xFFFF0000FFFFFFFF⟩ (by decide) fun k hk => ?_⟩
  simp only [Sys2Proof.encode, getLsbD_packE]
  interval_cases k <;> simp

theorem recon (mode : Mode) (cnt : Half) : Statement (.recon mode cnt) := by
  refine ⟨rfl, of_bits ⟨"RECON", 0x3100000000000000, 0xFFFE0000FFFFFFFF⟩ (by decide) fun k hk => ?_⟩
  simp only [Sys2Proof.encode, getLsbD_packE]
  interval_cases k <;> simp

end Sys2Proof.Laws.EncodedWord
end

