-- ==== Sys2Proof/Tests/Slice0.lean ====
section
/-! SUPPORT. Tests with results from the spec's examples and vectors, the smoke tests of well-formedness
and of the decoder, and for every obligation with hypotheses a witness that they can be met. -/

namespace Sys2Proof.Tests

open Sys2Proof Sys2Proof.Machine

/-- The state a command leaves. -/
def after (o : Result) : State :=
  match o with
  | .next t => t
  | .fault _ => State.reset
  | .refused _ => State.reset

/-- The responses a command adds when the state has none. -/
def answerTo (i : Instr) (s : State) : List RspWord := (after (exec i s)).rspOut

/-- N = 2, M = 2, L = 2, KIND = 0, the data of program P5 written, nothing encoded yet. -/
def ready : State :=
  { State.reset with
    cfg := ⟨true, .vandermonde, 2, 2, 2⟩
    gen := [[1, 0], [0, 1], [3, 2], [2, 3]]
    mem := [(0, 0x12), (1, 0x34), (65536, 0x56), (65537, 0x78)]
    desc := [(0, ⟨true, 2⟩), (1, ⟨true, 2⟩)] }

/-- The same after `ENCODE 2`, as program P5 gives it. -/
def encoded : State :=
  { ready with
    mem := [(0, 0x12), (1, 0x34), (65536, 0x56), (65537, 0x78), (131072, 0x9A), (131073, 0xAC),
      (196608, 0xDE), (196609, 0xE0)]
    desc := [(0, ⟨true, 2⟩), (1, ⟨true, 2⟩), (2, ⟨true, 2⟩), (3, ⟨true, 2⟩)] }

/-- The same with both data slots erased and overwritten with zeros (program P5). -/
def lost : State :=
  { encoded with
    mem := [(0, 0), (1, 0), (65536, 0), (65537, 0), (131072, 0x9A), (131073, 0xAC),
      (196608, 0xDE), (196609, 0xE0)]
    desc := [(2, ⟨true, 2⟩), (3, ⟨true, 2⟩)] }

/-- The same with a decoding matrix made (program P5). -/
def decoded : State := { lost with decv := true, sel := [2, 3], dec := [[3, 2], [2, 3]] }

/-- One data slot and both parity slots erased: fewer than N present. -/
def tooFew : State := { encoded with desc := [(0, ⟨true, 2⟩)] }

/-- An instance whose `GEN` has two equal rows (no reachable state): a singular selection. -/
def singular : State := { encoded with gen := [[1, 1], [1, 1], [3, 2], [2, 3]] }

/-! ### Well-formedness: a reserved bit set in every row that has one, and unknown opcodes (R65, V8) -/

theorem smoke_nop : wellFormedWord 0x0000000000000001 = false := by decide
theorem smoke_gfadd : wellFormedWord 0x0153CA0100000000 = false := by decide
theorem smoke_gfmul : wellFormedWord 0x0202800000000001 = false := by decide
theorem smoke_gfdiv : wellFormedWord 0x0301028000000001 = false := by decide
theorem smoke_gfinv : wellFormedWord 0x0453010000000000 = false := by decide
theorem smoke_config : wellFormedWord 0x1002000400020008 = false := by decide
theorem smoke_csrrd : wellFormedWord 0x1104010000000000 = false := by decide
theorem smoke_genrd : wellFormedWord 0x1204008000000000 = false := by decide
theorem smoke_mkdec : wellFormedWord 0x1300000000000001 = false := by decide
theorem smoke_decrd : wellFormedWord 0x1401030000000001 = false := by decide
theorem smoke_selrd : wellFormedWord 0x1503800000000000 = false := by decide
theorem smoke_shwr : wellFormedWord 0x200300071F000001 = false := by decide
theorem smoke_shrd : wellFormedWord 0x2103000701000000 = false := by decide
theorem smoke_shset : wellFormedWord 0x2201000803000000 = false := by decide
theorem smoke_shget : wellFormedWord 0x2301010000000000 = false := by decide
theorem smoke_encode : wellFormedWord 0x3001000400000000 = false := by decide
theorem smoke_recon : wellFormedWord 0x3102000600000000 = false := by decide
theorem smoke_unknown_opcodes :
    [0x05, 0x0F, 0x16, 0x1F, 0x24, 0x2F, 0x32, 0xFF].all
      (fun op => !wellFormedWord (BitVec.ofNat 64 (op * 2 ^ 56))) = true := by decide
theorem smoke_legal_word : wellFormedWord 0x3100000600000000 = true := by decide

/-! ### Decoding: one word per command, written out from the spec's examples -/

theorem test_decode_nop : decode 0x0000000000000000 = .ok .nop := by decide
theorem test_decode_gfadd : decode 0x0153CA0000000000 = .ok (.gfadd 0x53 0xCA) := by decide
theorem test_decode_gfmul : decode 0x0202800000000000 = .ok (.gfmul 0x02 0x80) := by decide
theorem test_decode_gfdiv : decode 0x031D800000000000 = .ok (.gfdiv 0x1D 0x80) := by decide
theorem test_decode_gfinv : decode 0x0402000000000000 = .ok (.gfinv 0x02) := by decide
theorem test_decode_config : decode 0x100000C800390008 = .ok (.config .vandermonde 200 57 8) := by decide
theorem test_decode_config_cauchy : decode 0x1001000300020004 = .ok (.config .cauchy 3 2 4) := by decide
theorem test_decode_csrrd : decode 0x1104000000000000 = .ok (.csrrd 4) := by decide
theorem test_decode_genrd : decode 0x1205040000000000 = .ok (.genrd 5 4) := by decide
theorem test_decode_mkdec : decode 0x1300000000000000 = .ok .mkdec := by decide
theorem test_decode_decrd : decode 0x1401030000000000 = .ok (.decrd 1 3) := by decide
theorem test_decode_selrd : decode 0x1503000000000000 = .ok (.selrd 3) := by decide
theorem test_decode_shwr : decode 0x20FFFFFFA5000000 = .ok (.shwr 255 65535 0xA5) := by decide
theorem test_decode_shrd : decode 0x2103000700000000 = .ok (.shrd 3 7) := by decide
theorem test_decode_shset : decode 0x2207FFFF01000000 = .ok (.shset 7 65535 true) := by decide
theorem test_decode_shget : decode 0x2307000000000000 = .ok (.shget 7) := by decide
theorem test_decode_encode : decode 0x3000000400000000 = .ok (.encode 4) := by decide
theorem test_decode_recon : decode 0x3101000600000000 = .ok (.recon .data 6) := by decide
theorem test_decode_unknown : decode 0x0500000000000000 = .error (.unknownOpcode 5) := by decide
theorem test_decode_reserved : decode 0x2103000701000000 = .error (.reservedBitsSet 0x21) := by decide
theorem test_decodeTableWord : decodeTableWord 64 0x1104000000000000 = some (.csrrd 4) := by decide

/-! ### Commands, at most two tests each, with the spec's results -/

/-- R89. -/
theorem test_nop : answerTo .nop State.reset = [0x00000000] := by decide
/-- R86 and V1. -/
theorem test_gfadd : answerTo (.gfadd 0x53 0xCA) State.reset = [0x00000099] := by decide
/-- V1 row 6. -/
theorem test_gfmul : answerTo (.gfmul 0x53 0xCA) State.reset = [0x0000008F] := by decide
/-- V1 row 8: every bit of both operands set. -/
theorem test_gfmul_reduces : answerTo (.gfmul 0xFF 0xFF) State.reset = [0x000000E2] := by decide
/-- V1 row 22. -/
theorem test_gfdiv : answerTo (.gfdiv 0x8F 0xCA) State.reset = [0x00000053] := by decide
/-- V1 row 24: 0 / 0. -/
theorem test_gfdiv_zero : answerTo (.gfdiv 0 0) State.reset = [0x02000000] := by decide
/-- V1 row 30. -/
theorem test_gfinv : answerTo (.gfinv 0x53) State.reset = [0x0000008C] := by decide
/-- V1 row 32, and the bit of `ERRLOG` of row 34. -/
theorem test_gfinv_zero : (after (exec (.gfinv 0) State.reset)).errlog = 0x004 := by decide
/-- R104: KIND = 0, N = 3, M = 2. -/
theorem test_config : (after (exec (.config .vandermonde 3 2 4) State.reset)).gen =
    [[1, 0, 0], [0, 1, 0], [0, 0, 1], [1, 1, 1], [0x0F, 0x08, 0x06]] := by decide +kernel
/-- R104: KIND = 1, N = 3, M = 2. -/
theorem test_config_cauchy : (after (exec (.config .cauchy 3 2 4) State.reset)).gen =
    [[1, 0, 0], [0, 1, 0], [0, 0, 1], [0xF4, 0x8E, 0x01], [0x47, 0xA7, 0x7A]] := by decide +kernel
/-- Program P5, command 39: `FLAGS` with `VALID` and `DECV`. -/
theorem test_csrrd_flags : answerTo (.csrrd 0) decoded = [0x00000005] := by decide
/-- V9 row 14. -/
theorem test_csrrd_range : answerTo (.csrrd 200) State.reset = [0x08000000] := by decide
/-- R104: parity rows `03 02` / `02 03`. -/
theorem test_genrd : answerTo (.genrd 2 0) ready = [0x00000003] := by decide
/-- V9 rows 3 and 11: with no instance `SequenceError` comes before `RangeError`. -/
theorem test_genrd_order : answerTo (.genrd 200 200) State.reset = [0x07000000] := by decide
/-- Program P5, commands 19 to 25. -/
theorem test_mkdec : (after (exec .mkdec lost)).dec = [[3, 2], [2, 3]] := by decide +kernel
/-- Program P5, command 36: too few shards, nothing derived. -/
theorem test_mkdec_insufficient : answerTo .mkdec tooFew = [0x04000000] := by decide +kernel
/-- Program P5, command 24. -/
theorem test_decrd : answerTo (.decrd 1 0) decoded = [0x00000002] := by decide
/-- V9 row 12: `DECV = 0`. -/
theorem test_decrd_sequence : answerTo (.decrd 0 0) ready = [0x07000000] := by decide
/-- Program P5, command 21. -/
theorem test_selrd : answerTo (.selrd 1) decoded = [0x00000003] := by decide
/-- R115: i >= N. -/
theorem test_selrd_range : answerTo (.selrd 2) decoded = [0x08000000] := by decide
/-- V7 row 2: the last byte of the store, address 0xFFFFFF. -/
theorem test_shwr : (after (exec (.shwr 255 65535 0xA5) State.reset)).mem = [(0xFFFFFF, 0xA5)] := by decide
/-- V7 rows 4 to 7: the first byte, written twice. -/
theorem test_shwr_twice :
    (after (exec (.shwr 0 0 0xFF) (after (exec (.shwr 0 0 0x00) State.reset)))).mem = [(0, 0xFF)] := by
  decide
/-- Program P5, command 12. -/
theorem test_shrd : answerTo (.shrd 3 1) encoded = [0x000000E0] := by decide
/-- V7 row 8. -/
theorem test_shset : (after (exec (.shset 7 65535 true) State.reset)).desc = [(7, ⟨true, 65535⟩)] := by
  decide
/-- V7 row 10, and the canonical form: the reset value is not listed. -/
theorem test_shset_reset_value : (after (exec (.shset 0 0 false) ready)).desc = [(1, ⟨true, 2⟩)] := by
  decide
/-- Program P5, command 31. -/
theorem test_shget : answerTo (.shget 0) encoded = [0x00010002] := by decide
/-- V7 row 1. -/
theorem test_shget_reset : answerTo (.shget 0) State.reset = [0x00000000] := by decide
/-- Program P5, commands 8 to 12: the parity bytes and the descriptors. -/
theorem test_encode : (after (exec (.encode 2) ready)).mem = encoded.mem ∧
    (after (exec (.encode 2) ready)).desc = encoded.desc := by decide +kernel
/-- R140: wrong count. -/
theorem test_encode_count : answerTo (.encode 3) ready = [0x01000000] := by decide
/-- Program P5, commands 26 to 31: both data slots from parity alone. -/
theorem test_recon : (after (exec (.recon .all 4) lost)).mem = encoded.mem ∧
    (after (exec (.recon .all 4) lost)).desc = encoded.desc := by decide +kernel
/-- Program P5, command 35: nothing is written but the error. -/
theorem test_recon_insufficient : (after (exec (.recon .all 4) tooFew)) =
    { tooFew with errlog := 0x010, rspOut := [0x04000000] } := by decide +kernel

/-- R106, the worked example with a row swap. -/
theorem test_invert_swap : invert 3 [[0, 1, 2], [1, 0, 3], [4, 5, 7]] =
    some [[0x0F, 0x0D, 0x03], [0x0B, 0x08, 0x02], [0x05, 0x04, 0x01]] := by decide +kernel
/-- R106, the singular example. -/
theorem test_invert_singular : invert 3 [[0, 1, 2], [1, 0, 3], [4, 5, 6]] = none := by decide +kernel
/-- V8 row 9: an illegal word as the first command after reset. -/
theorem test_step_illegal :
    after (step (State.reset.withFetchWord 64 0xFFFFFFFFFFFFFFFF)) =
      { State.reset with errlog := 0x040, rspOut := [0x06000000] } := by decide
/-- V1 row 33: a step runs the word that `withFetchWord` presents. -/
theorem test_step_fetch :
    after (step (State.reset.withFetchWord 64 0x0153CA0000000000)) =
      { State.reset with rspOut := [0x00000099] } := by decide

/-! ### Witnesses: the hypotheses of every obligation that has some can be met -/

theorem encoded_inv : MachineInv encoded where
  memWf := by decide
  descWf := by simp [encoded, ready, Descs.wf, cellsRising, descReset]
  errlogBit0 := by decide
  cfgInvalid := by simp [encoded, ready]
  cfgLegal := fun _ => ⟨by decide, by decide⟩
  genBuilt := fun _ => by decide +kernel
  decBuilt := by simp [encoded, ready, State.reset]

theorem ready_inv : MachineInv ready where
  memWf := by decide
  descWf := by simp [ready, Descs.wf, cellsRising, descReset]
  errlogBit0 := by decide
  cfgInvalid := by simp [ready]
  cfgLegal := fun _ => ⟨by decide, by decide⟩
  genBuilt := fun _ => by decide +kernel
  decBuilt := by simp [ready, State.reset]

theorem witness_DecodeOfEncodeIsIdentity : wellFormed (.config .cauchy 65535 65535 65535) = true := rfl
theorem witness_EncodeOfDecodeIsIdentity :
    decode 0x1001FFFFFFFFFFFF = .ok (.config .cauchy 65535 65535 65535) := by decide
theorem witness_OpcodeRowsAreExclusive :
    (⟨"MKDEC", 0x1300000000000000, 0xFFFFFFFFFFFFFFFF⟩ : OpcodeRow) ∈ opcodeTable ∧
    (⟨"MKDEC", 0x1300000000000000, 0xFFFFFFFFFFFFFFFF⟩ : OpcodeRow).matchesWord 0x1300000000000000 =
      true := by decide
theorem witness_StepExecutesDecodedCommand :
    (present ready 0x3000000200000000).cmdIn = [.command 0x3000000200000000] ∧
    decode 0x3000000200000000 = .ok (.encode 2) := by decide
theorem witness_IllegalWordIsAnswered :
    (present ready 0x3200000000000000).cmdIn = [.command 0x3200000000000000] ∧
    wellFormedWord 0x3200000000000000 = false := by decide
theorem witness_ResetEventRestoresResetState :
    ({ encoded with cmdIn := [.reset] } : State).cmdIn = [.reset] := rfl
theorem witness_StepWaitsWhenNothingIsPresented : encoded.cmdIn = [] := rfl
theorem witness_StepKeepsInvariant :
    MachineInv ready ∧ ∃ t, step ready = .next t := ⟨ready_inv, ready, rfl⟩
theorem witness_EveryCommandWordGetsOneResponse :
    (present encoded 0x2301000000000000).cmdIn = [.command 0x2301000000000000] ∧
    decode 0x2301000000000000 = .ok (.shget 1) := by decide
theorem witness_FailingCommandChangesOnlyErrlog :
    (∃ (t : State) (r : RspWord), exec (.gfinv 0) ready = .next t ∧ t.rspOut = ready.rspOut ++ [r] ∧
      rspErr r ≠ 0) ∧
    ∃ (t : State) (r : RspWord), (present ready 0x3200000000000000).cmdIn = [.command 0x3200000000000000] ∧
      step (present ready 0x3200000000000000) = .next t ∧ t.rspOut = ready.rspOut ++ [r] ∧ rspErr r ≠ 0 :=
  ⟨⟨_, 0x02000000, rfl, by decide, by decide⟩, _, 0x06000000, rfl, rfl, by decide, by decide⟩
theorem witness_ErrlogRecordsExactlyTheErrors :
    (present ready 0x0400000000000000).cmdIn = [.command 0x0400000000000000] ∧
    (∀ sel, Instr.gfinv 0 ≠ .csrrd sel) := ⟨rfl, by simp⟩
theorem witness_OnlyConfigChangesTheInstance :
    (∀ kind n m len, Instr.mkdec ≠ .config kind n m len) ∧ ∃ t, exec .mkdec State.reset = .next t :=
  ⟨by simp, _, rfl⟩
theorem witness_DecvFollowsItsRule :
    ∃ (t : State) (r : RspWord), exec .nop decoded = .next t ∧ t.rspOut = decoded.rspOut ++ [r] :=
  ⟨_, _, rfl, rfl⟩
theorem witness_OnlyTheListedCommandsWrite :
    (∃ t, exec (.shset 0 2 true) ready = .next t) ∧
    ((∀ slot off val, Instr.shset 0 2 true ≠ .shwr slot off val) ∧
      (∀ cnt, Instr.shset 0 2 true ≠ .encode cnt) ∧
      (∀ mode cnt, Instr.shset 0 2 true ≠ .recon mode cnt)) ∧
    (∃ t, exec (.shwr 0 0 1) ready = .next t) ∧
    ((∀ slot len pres, Instr.shwr 0 0 1 ≠ .shset slot len pres) ∧
      (∀ cnt, Instr.shwr 0 0 1 ≠ .encode cnt) ∧ (∀ mode cnt, Instr.shwr 0 0 1 ≠ .recon mode cnt)) ∧
    Instr.shwr 0 0 1 ≠ .mkdec :=
  ⟨⟨_, rfl⟩, ⟨by simp, by simp, by simp⟩, ⟨_, rfl⟩, ⟨by simp, by simp, by simp⟩, by simp⟩
theorem witness_ReadCommandsHaveNoSideEffect :
    (∃ t, exec (.shrd 3 1) encoded = .next t) ∧ ∃ slot off, Instr.shrd 3 1 = .shrd slot off :=
  ⟨⟨_, rfl⟩, _, _, rfl⟩
theorem witness_EngineStaysInItsWindow :
    numData ready + numParity ready ≤ 256 ∧ (∃ t, exec (.encode 2) ready = .next t) ∧
    numData ready + numParity ready ≤ (4 : Slot).toNat ∧ shardLen ready ≤ (2 : Half).toNat :=
  ⟨by decide, ⟨_, rfl⟩, by decide, by decide⟩
theorem witness_SequenceErrorComesFirst : State.reset.cfg.valid = false ∧ encoded.decv = false := by
  decide
theorem witness_ErrorCodesByCommand :
    ∃ (t : State) (r : RspWord), exec (.encode 3) ready = .next t ∧ t.rspOut = ready.rspOut ++ [r] :=
  ⟨_, 0x01000000, rfl, by decide⟩
theorem witness_GfdivAnswersQuotientOrDomainError : (0x80 : Byte) ≠ 0 ∧ (0x00 : Byte) = 0 := by decide
theorem witness_GfinvAnswersInverseOrDomainError : (0xFF : Byte) ≠ 0 ∧ (0x00 : Byte) = 0 := by decide
theorem witness_ConfigBuildsInstanceOrParameterError :
    (1 ≤ (1 : Half).toNat ∧ (1 : Half).toNat + (255 : Half).toNat ≤ 256) ∧
    (1 ≤ (256 : Half).toNat ∧ (256 : Half).toNat + (0 : Half).toNat ≤ 256) ∧
    (0 : Half).toNat < 1 ∧ 256 < (257 : Half).toNat ∧ 256 < (200 : Half).toNat + (57 : Half).toNat := by
  decide
theorem witness_CsrrdAnswersRegister :
    (0 : Byte).toNat = 0 ∧ (1 : Byte).toNat = 1 ∧ (2 : Byte).toNat = 2 ∧ (3 : Byte).toNat = 3 ∧
    (4 : Byte).toNat = 4 ∧ 5 ≤ (5 : Byte).toNat := by decide
theorem witness_GenrdAnswersGeneratorEntry :
    State.reset.cfg.valid = false ∧ ready.cfg.valid = true ∧
    numData ready + numParity ready ≤ (4 : Byte).toNat ∧ numData ready ≤ (2 : Byte).toNat ∧
    (3 : Byte).toNat < numData ready + numParity ready ∧ (1 : Byte).toNat < numData ready := by decide
theorem witness_MkdecDerivesDecodingMatrix :
    State.reset.cfg.valid = false ∧
    (tooFew.cfg.valid = true ∧ (presentIndices tooFew).length < numData tooFew) ∧
    (singular.cfg.valid = true ∧ numData singular ≤ (presentIndices singular).length ∧
      invert (numData singular) (selectedRows (numData singular) singular.gen (selectedSlots singular)) =
        none) ∧
    (lost.cfg.valid = true ∧ numData lost ≤ (presentIndices lost).length ∧
      invert (numData lost) (selectedRows (numData lost) lost.gen (selectedSlots lost)) =
        some [[3, 2], [2, 3]]) := by decide +kernel
theorem witness_DecrdAnswersDecodingEntry :
    encoded.decv = false ∧ decoded.cfg.valid = true ∧ decoded.decv = true ∧
    numData decoded ≤ (2 : Byte).toNat ∧ (1 : Byte).toNat < numData decoded := by decide
theorem witness_SelrdAnswersSelectedIndex :
    encoded.decv = false ∧ decoded.cfg.valid = true ∧ decoded.decv = true ∧
    numData decoded ≤ (2 : Byte).toNat ∧ (1 : Byte).toNat < numData decoded := by decide
theorem witness_ShwrWritesOneByte : (254 : Slot) ≠ 255 ∧ (65534 : Half) ≠ 65535 := by decide
theorem witness_ShrdAnswersByte :
    cellsGet ((3 : Slot).toNat * 65536 + (1 : Half).toNat) encoded.mem = some 0xE0 := by decide
theorem witness_ShwrThenShrdAnswersTheByte :
    ∃ t, exec (.shwr 255 65535 0xA5) State.reset = .next t := ⟨_, rfl⟩
theorem witness_ShsetWritesDescriptor : (254 : Slot) ≠ 255 := by decide
theorem ready_encodeReady : EncodeReady 2 ready := by unfold EncodeReady; decide
theorem encoded_encodeReady : EncodeReady 2 encoded := by unfold EncodeReady; decide
theorem witness_EncodeChecksInOrder :
    State.reset.cfg.valid = false ∧ (ready.cfg.valid = true ∧ (3 : Half).toNat ≠ numData ready) ∧
    ((2 : Half).toNat = numData ready ∧
      ∃ j < numData ready,
        declaredLen { ready with desc := [(0, ⟨true, 2⟩)] } (slotOf j) ≠ ready.cfg.l) ∧
    EncodeReady 2 ready :=
  ⟨by decide, by decide, ⟨by decide, 1, by decide, by decide⟩, ready_encodeReady⟩
theorem witness_EncodeWritesParity :
    EncodeReady 2 ready ∧ numData ready + numParity ready ≤ 256 ∧
    (numData ready ≤ (3 : Slot).toNat ∧ (3 : Slot).toNat < numData ready + numParity ready ∧
      (1 : Half).toNat < shardLen ready) ∧
    (1 : Slot).toNat < numData ready ∧ numData ready + numParity ready ≤ (4 : Slot).toNat ∧
    shardLen ready ≤ (2 : Half).toNat := ⟨ready_encodeReady, by decide⟩
theorem ready_encodes : Answers (exec (.encode 2) ready) (encodeEffect ready) false 0 := by
  rw [exec_encode_ready ready_encodeReady]; exact answers_respond _ _
theorem witness_ReencodingIsIdempotent :
    EncodeReady 2 ready ∧ numData ready + numParity ready ≤ 256 ∧
    ∃ t, Answers (exec (.encode 2) ready) t false 0 :=
  ⟨ready_encodeReady, by decide, _, ready_encodes⟩
theorem witness_EncodeColumnsAreIndependent :
    EncodeReady 2 ready ∧ EncodeReady 2 encoded ∧ numData ready + numParity ready ≤ 256 ∧
    encoded.cfg = ready.cfg ∧ encoded.gen = ready.gen ∧
    (∀ j < numData ready, readShard encoded (slotOf j) 1 = readShard ready (slotOf j) 1) ∧
    (∃ t, exec (.encode 2) ready = .next t) ∧ (∃ v, exec (.encode 2) encoded = .next v) ∧
    numData ready ≤ (2 : Slot).toNat ∧ (2 : Slot).toNat < numData ready + numParity ready ∧
    (1 : Half).toNat < shardLen ready :=
  ⟨ready_encodeReady, encoded_encodeReady, by decide, rfl, rfl, by decide, ⟨_, rfl⟩, ⟨_, rfl⟩, by decide,
    by decide, by decide⟩
theorem lost_shapeOk : ReconShapeOk 4 lost := by unfold ReconShapeOk; decide
theorem tooFew_shapeOk : ReconShapeOk 4 tooFew := by unfold ReconShapeOk; decide
theorem singular_shapeOk : ReconShapeOk 4 singular := by unfold ReconShapeOk; decide
theorem encoded_shapeOk : ReconShapeOk 4 encoded := by unfold ReconShapeOk; decide
theorem witness_ReconChecksInOrder :
    State.reset.cfg.valid = false ∧ (lost.cfg.valid = true ∧ (5 : Half).toNat ≠ numData lost + numParity lost) ∧
    (∃ i < numData lost + numParity lost,
      isPresent { lost with desc := [(3, ⟨true, 3⟩)] } (slotOf i) = true ∧
      declaredLen { lost with desc := [(3, ⟨true, 3⟩)] } (slotOf i) ≠ lost.cfg.l) ∧
    (ReconShapeOk 4 tooFew ∧ (presentIndices tooFew).length < numData tooFew) ∧
    (ReconShapeOk 4 singular ∧ numData singular ≤ (presentIndices singular).length ∧
      invert (numData singular) (selectedRows (numData singular) singular.gen (selectedSlots singular)) =
        none) :=
  ⟨by decide, by decide, ⟨3, by decide, by decide, by decide⟩, ⟨tooFew_shapeOk, by decide⟩,
    singular_shapeOk, by decide, by decide +kernel⟩
theorem witness_ReconRefillsRequestedSlots :
    ReconShapeOk 4 lost ∧ numData lost + numParity lost ≤ 256 ∧
    numData lost ≤ (presentIndices lost).length ∧
    invert (numData lost) (selectedRows (numData lost) lost.gen (selectedSlots lost)) =
      some [[3, 2], [2, 3]] ∧
    ((1 : Slot).toNat < numData lost ∧ isPresent lost 1 = false ∧ (1 : Half).toNat < shardLen lost) ∧
    Requested .data lost 1 ∧ ¬Requested .all lost 2 :=
  ⟨lost_shapeOk, by decide, by decide, by decide +kernel, by decide, ⟨by decide, .inl (by decide)⟩,
    fun h => absurd h.1 (by decide)⟩
/-- One data and one parity slot erased: the clause on parity slots. -/
theorem witness_ReconRefillsRequestedSlots_parity :
    ReconShapeOk 4 { encoded with desc := [(0, ⟨true, 2⟩), (2, ⟨true, 2⟩)] } ∧
    (numData encoded ≤ (3 : Slot).toNat ∧ (3 : Slot).toNat < numData encoded + numParity encoded ∧
      isPresent { encoded with desc := [(0, ⟨true, 2⟩), (2, ⟨true, 2⟩)] } 3 = false) :=
  ⟨by unfold ReconShapeOk; decide, by decide⟩
theorem witness_ReconWithNothingErasedMovesNoByte :
    ReconShapeOk 4 encoded ∧
    (∀ i < numData encoded + numParity encoded, isPresent encoded (slotOf i) = true) ∧
    invert (numData encoded)
      (selectedRows (numData encoded) encoded.gen ((List.range (numData encoded)).map slotOf)) =
        some [[1, 0], [0, 1]] :=
  ⟨encoded_shapeOk, by decide, by decide +kernel⟩
theorem lost_decodes : decodingMatrix lost = .ok ([2, 3], [[3, 2], [2, 3]]) := by decide +kernel
theorem lost_recons : Answers (exec (.recon .all 4) lost) (reconEffect .all [2, 3] [[3, 2], [2, 3]] lost)
    false 0 := by
  rw [exec_recon_ready lost_shapeOk lost_decodes]; exact answers_respond _ _
/-- The second state has other bytes in the erased slots. -/
theorem witness_ReconNeverReadsErasedSlots :
    numData lost + numParity lost ≤ 256 ∧
    (∀ (slot : Slot) (off : Half), slot.toNat < numData lost + numParity lost →
      isPresent lost slot = true → off.toNat < shardLen lost →
        readShard { lost with mem := encoded.mem } slot off = readShard lost slot off) ∧
    (∃ t, Answers (exec (.recon .all 4) lost) t false 0) ∧
    readShard { lost with mem := encoded.mem } 0 0 ≠ readShard lost 0 0 := by
  refine ⟨by decide, fun slot off hslot hp hoff => ?_, ⟨_, lost_recons⟩, by decide⟩
  have h1 : slot.toNat < 4 := hslot
  have h2 : off.toNat < 2 := hoff
  rw [← slotOf_self slot, ← offOf_self off]
  rw [← slotOf_self slot] at hp
  generalize slot.toNat = a at *
  generalize off.toNat = b at *
  interval_cases a <;> interval_cases b <;> first | rfl | exact absurd hp (by decide)
theorem witness_DecodingSucceedsWithEnoughShards :
    MachineInv encoded ∧ encoded.cfg.valid = true ∧ numData encoded ≤ (presentIndices encoded).length ∧
    ReconShapeOk 4 encoded := ⟨encoded_inv, by decide, by decide, encoded_shapeOk⟩
/-- The restored state: both data slots erased and zeroed after the `ENCODE`. -/
theorem witness_ReconRestoresWhatEncodeLeft :
    MachineInv ready ∧ EncodeReady 2 ready ∧
    Answers (exec (.encode 2) ready) (encodeEffect ready) false 0 ∧
    lost.cfg = (encodeEffect ready).cfg ∧ lost.gen = (encodeEffect ready).gen ∧ ReconShapeOk 4 lost ∧
    (∀ (slot : Slot) (off : Half), slot.toNat < numData ready + numParity ready →
      isPresent lost slot = true → off.toNat < shardLen ready →
        readShard lost slot off = readShard (encodeEffect ready) slot off) ∧
    numData ready ≤ (presentIndices lost).length := by
  refine ⟨ready_inv, ready_encodeReady, ready_encodes, rfl, rfl, lost_shapeOk, fun slot off hslot hp hoff => ?_,
    by decide⟩
  have hm : (encodeEffect ready).mem = encoded.mem := by decide +kernel
  rw [readShard_congr (s := encoded) (t := encodeEffect ready) hm rfl]
  have h1 : slot.toNat < 4 := hslot
  have h2 : off.toNat < 2 := hoff
  rw [← slotOf_self slot, ← offOf_self off]
  rw [← slotOf_self slot] at hp
  generalize slot.toNat = a at *
  generalize off.toNat = b at *
  interval_cases a <;> interval_cases b <;> first | rfl | exact absurd hp (by decide)
theorem witness_FieldLaws : gfMul 0 0x53 = 0 ∧ (0x53 : Byte) ≠ 0 ∧ gfMul 0x53 0x8C = 1 := by decide
theorem witness_TablesHoldThePowersOfAlpha : romRead expTable 253 = some 0x47 ∧ romRead expTable 254 = some 0x8E :=
  by decide
theorem witness_ProductsAgreeWithTables : (0xFF : Byte) ≠ 0 := by decide
theorem witness_InvertGivesTwoSidedInverse : invert 2 [[1, 1], [1, 2]] = some [[0xF5, 0xF4], [0xF4, 0xF4]] := by
  decide +kernel
theorem witness_InvertSucceedsOnInvertible :
    matMul 2 2 2 [[0xF5, 0xF4], [0xF4, 0xF4]] [[1, 1], [1, 2]] = identityMat 2 := by decide +kernel
theorem witness_InvertOfIdentityAndOfOneByOne : gfInv 2 = some 0x8E := by decide
theorem witness_CauchyGeneratorEntries : LegalParameters 1 255 ∧ LegalParameters 256 0 := by
  unfold LegalParameters; decide
theorem witness_VandermondeGeneratorFactors : LegalParameters 1 255 ∧ LegalParameters 256 0 :=
  witness_CauchyGeneratorEntries
theorem witness_GeneratorIsSystematic : LegalParameters 1 255 ∧ LegalParameters 256 0 :=
  witness_CauchyGeneratorEntries
theorem witness_GeneratorIsMds :
    LegalParameters 2 2 ∧ ([3, 1] : List Slot).length = 2 ∧ ([3, 1] : List Slot).Nodup ∧
    ∀ slot ∈ ([3, 1] : List Slot), slot.toNat < 2 + 2 := by
  unfold LegalParameters; decide
theorem witness_DecodingMatrixKeepsPresentData :
    LegalParameters 2 2 ∧ TopIdentity 2 encoded.gen ∧
    decMat 2 2 encoded.gen (fun slot => slot == 1 || slot == 3) = .ok ([1, 3], [[0x8F, 0x8E], [1, 0]]) ∧
    (selEntry [1, 3] 0 = slotOf 1) ∧
    (decMat 2 2 encoded.gen (fun _ => true) = .ok ([0, 1], [[1, 0], [0, 1]])) := by
  refine ⟨by unfold LegalParameters; decide, by unfold TopIdentity; decide, ?_, by decide, by decide +kernel⟩
  decide +kernel

end Sys2Proof.Tests
end

namespace Sys2Proof.Machine

/-- Settles O6, from the two ways a step on a presented word can end: a word that decodes rules the
second one (the illegal word) out. -/
theorem stepExecutesDecodedCommand : Obligations.StepExecutesDecodedCommand := by
  intro s w i rest hcmd hdec
  obtain ⟨i', hdec', hstep⟩ | ⟨e, herr, -⟩ := step_command hcmd
  · obtain rfl : i = i' := Except.ok.inj (hdec.symm.trans hdec')
    exact hstep
  · exact nomatch hdec.symm.trans herr

end Sys2Proof.Machine

namespace Sys2Proof.Machine

/-! ### How a command ends

Inversions of `exec` and of `step` for a presented word, on top of `exec_cases` and `step_command`. -/

/-- The state in which a command ends: an error's bit and response added to the state before, or a
response added to the state of the command's effect. -/
theorem exec_next_cases {i : Instr} {s t : State} (h : exec i s = .next t) :
    (∃ e, t = answer { s with errlog := logError s.errlog e } (responseWord (errorCode e) false 0)) ∨
    (∃ s' p val, t = answer s' (responseWord 0 p val) ∧ CommandEffect i s s') := by
  obtain ⟨e, hraise, -⟩ | ⟨s', p, val, hans, heff, -, -⟩ := exec_cases i s
  · exact .inl ⟨e, Host.Outcome.next.inj (h.symm.trans hraise)⟩
  · exact .inr ⟨s', p, val, Host.Outcome.next.inj (h.symm.trans hans), heff⟩

/-- How the step on a presented word ends: an error, which an illegal word is too, or an answer in the
state of the decoded command's effect. -/
theorem step_command_cases {s : State} {w : CmdWord} {rest : List HostEvent}
    (h : s.cmdIn = .command w :: rest) :
    (∃ e, step s = raise e { s with cmdIn := rest }) ∨
    (∃ i s' p val, decode w = .ok i ∧ step s = respondWith p val s' ∧
      CommandEffect i { s with cmdIn := rest } s') := by
  obtain ⟨i, hdec, hstep⟩ | ⟨e, -, hstep⟩ := step_command h
  · obtain ⟨e, hraise, -⟩ | ⟨s', p, val, hans, heff, -, -⟩ := exec_cases i { s with cmdIn := rest }
    · exact .inl ⟨e, hstep.trans hraise⟩
    · exact .inr ⟨i, s', p, val, hdec, hstep.trans hans, heff⟩
  · exact .inl ⟨.illegalCommand, hstep⟩

/-- The error codes are 1 to 8 (R160). -/
theorem errorCode_toNat_bounds (e : ErrorKind) :
    1 ≤ (errorCode e).toNat ∧ (errorCode e).toNat ≤ 8 := by
  cases e <;> decide

theorem errorCode_ne_zero (e : ErrorKind) : errorCode e ≠ 0 := by
  cases e <;> decide

/-- One response added to the same responses is the same response. -/
theorem eq_of_answer_rspOut {s s' : State} {r r' : RspWord} (hs : s'.rspOut = s.rspOut)
    (h : (answer s' r').rspOut = s.rspOut ++ [r]) : r = r' := by
  simpa [hs] using h.symm

/-! ### What the codec's effects leave alone -/

@[simp] theorem encodeEffect_cfg (s : State) : (encodeEffect s).cfg = s.cfg := rfl
@[simp] theorem encodeEffect_gen (s : State) : (encodeEffect s).gen = s.gen := rfl
@[simp] theorem encodeEffect_decv (s : State) : (encodeEffect s).decv = s.decv := rfl

section
variable (mode : Mode) (sel : List Slot) (dec : Mat) (s : State)

@[simp] theorem reconEffect_cfg : (reconEffect mode sel dec s).cfg = s.cfg := by cases mode <;> rfl
@[simp] theorem reconEffect_gen : (reconEffect mode sel dec s).gen = s.gen := by cases mode <;> rfl
@[simp] theorem reconEffect_decv : (reconEffect mode sel dec s).decv = true := by cases mode <;> rfl

end

/-! ### `CFG`, `GEN` and `DECV` -/

/-- No effect but that of `CONFIG` writes `CFG` or `GEN` (R13, R17). -/
theorem CommandEffect.cfg_gen {i : Instr} {s s' : State} (h : CommandEffect i s s')
    (hi : ∀ kind n m len, i ≠ .config kind n m len) : s'.cfg = s.cfg ∧ s'.gen = s.gen := by
  cases i <;> simp only [CommandEffect] at h
  case config kind n m len => exact absurd rfl (hi kind n m len)
  case mkdec => obtain ⟨-, sel, dec, -, rfl⟩ := h; exact ⟨rfl, rfl⟩
  case encode => obtain ⟨-, rfl⟩ := h; simp
  case recon => obtain ⟨-, sel, dec, -, rfl⟩ := h; simp
  all_goals subst h; exact ⟨rfl, rfl⟩

/-- Settles O16: an error leaves `CFG` and `GEN`, and so does every effect but that of `CONFIG`. -/
theorem onlyConfigChangesTheInstance : Obligations.OnlyConfigChangesTheInstance := by
  intro i s t hi hexec
  obtain ⟨e, rfl⟩ | ⟨s', p, val, rfl, heff⟩ := exec_next_cases hexec
  · exact ⟨rfl, rfl⟩
  · exact heff.cfg_gen hi

/-- Settles O17: with an error `ERR` is nonzero and `DECV` is not written; without one `ERR` is 0 and
`DECV` is what the command's effect makes it. -/
theorem decvFollowsItsRule : Obligations.DecvFollowsItsRule := by
  intro i s t r hexec hrsp
  obtain ⟨e, rfl⟩ | ⟨s', p, val, rfl, heff⟩ := exec_next_cases hexec
  · have hr := eq_of_answer_rspOut rfl hrsp
    have herr : rspErr r ≠ 0 := by simpa [hr] using errorCode_ne_zero e
    rw [if_pos herr]
    rfl
  · have hr := eq_of_answer_rspOut heff.leavesChannels.rspOut hrsp
    have herr : ¬ rspErr r ≠ 0 := by simp [hr]
    rw [if_neg herr, answer_decv]
    cases i <;> simp only [CommandEffect] at heff
    case config => obtain ⟨-, rfl⟩ := heff; rfl
    case mkdec => obtain ⟨-, sel, dec, -, rfl⟩ := heff; rfl
    case encode => obtain ⟨-, rfl⟩ := heff; exact encodeEffect_decv s
    case recon mode cnt => obtain ⟨-, sel, dec, -, rfl⟩ := heff; exact reconEffect_decv mode sel dec s
    all_goals subst heff; rfl

/-! ### `ERRLOG` is a log of the errors -/

/-- A byte is the code `c` as a byte exactly when it is `c` as a number. -/
theorem beq_ofNat_code (x : Byte) {c : Nat} (hc : c ≤ 8) :
    (x == BitVec.ofNat 8 c) = decide (x.toNat = c) := by
  rw [Bool.eq_iff_iff, beq_iff_eq, decide_eq_true_iff, ← BitVec.toNat_inj, BitVec.toNat_ofNat,
    Nat.mod_eq_of_lt (by omega)]

/-- Bit `c` of `ERRLOG` after an error: set before, or the error's own (R16). -/
theorem getLsbD_logError (log : BitVec 9) (e : ErrorKind) {c : Nat} (hc : c ≤ 8) :
    (logError log e).getLsbD c = (log.getLsbD c || errorCode e == BitVec.ofNat 8 c) := by
  obtain ⟨-, hle⟩ := errorCode_toNat_bounds e
  have hbit : logError log e = log ||| BitVec.twoPow 9 (errorCode e).toNat := rfl
  rw [hbit, BitVec.getLsbD_or, BitVec.getLsbD_twoPow, beq_ofNat_code _ hc,
    decide_eq_true (show (errorCode e).toNat < 9 by omega), Bool.true_and]

/-- The error half from `getLsbD_logError`, where bit 0 is no code's; the other half from the effects,
which leave `ERRLOG` and answer with code 0 (R16). -/
theorem step_command_errlog {s : State} {w : CmdWord} {rest : List HostEvent}
    (h : s.cmdIn = .command w :: rest) :
    ∃ (t : State) (r : RspWord), step s = .next t ∧ t.rspOut = s.rspOut ++ [r] ∧
      (∀ c, 1 ≤ c → c ≤ 8 →
        t.errlog.getLsbD c = (s.errlog.getLsbD c || rspErr r == BitVec.ofNat 8 c)) ∧
      t.errlog.getLsbD 0 = s.errlog.getLsbD 0 := by
  obtain ⟨e, hstep⟩ | ⟨i, s', p, val, -, hstep, heff⟩ := step_command_cases h
  · refine ⟨_, _, hstep, rfl, fun c _ hc => ?_, ?_⟩
    · rw [rspErr_responseWord]
      exact getLsbD_logError s.errlog e hc
    · have hzero : (errorCode e == BitVec.ofNat 8 0) = false :=
        beq_eq_false_iff_ne.mpr (errorCode_ne_zero e)
      have hbit := getLsbD_logError s.errlog e (Nat.zero_le 8)
      rwa [hzero, Bool.or_false] at hbit
  · obtain ⟨herrlog, -, hrsp, -⟩ := heff.leavesChannels
    refine ⟨_, responseWord 0 p val, hstep, by rw [answer_rspOut, hrsp], fun c h1 hc => ?_, ?_⟩
    · have hcode : ((0 : Byte) == BitVec.ofNat 8 c) = false := by
        rw [beq_ofNat_code 0 hc]
        exact decide_eq_false (Nat.ne_of_lt h1)
      rw [rspErr_responseWord, hcode, Bool.or_false, answer_errlog, herrlog]
    · rw [answer_errlog, herrlog]

/-! ### Only `CSRRD` sees `ERRLOG`

Two runs of a command from states that differ in `ERRLOG` only: the same checks, so the same branch, and
each branch ends in states that differ in `ERRLOG` only. -/

/-- Both outcomes are next states, equal but for `ERRLOG`. -/
def SameButErrlog (o o' : Result) : Prop :=
  ∃ (t : State) (e' : BitVec 9), o = .next t ∧ o' = .next { t with errlog := e' }

section
variable (s : State) (e : BitVec 9)

theorem sameButErrlog_raise (k : ErrorKind) :
    SameButErrlog (raise k s) (raise k { s with errlog := e }) :=
  ⟨_, logError e k, rfl, rfl⟩

theorem sameButErrlog_respondWith (p : Bool) (val : Half) :
    SameButErrlog (respondWith p val s) (respondWith p val { s with errlog := e }) :=
  ⟨_, e, rfl, rfl⟩

theorem sameButErrlog_respond (val : Half) :
    SameButErrlog (respond val s) (respond val { s with errlog := e }) :=
  sameButErrlog_respondWith s e false val

end

theorem SameButErrlog.ite {c : Prop} [Decidable c] {a a' b b' : Result}
    (ha : SameButErrlog a a') (hb : SameButErrlog b b') :
    SameButErrlog (if c then a else b) (if c then a' else b') := by
  split
  · exact ha
  · exact hb

section
variable (s : State) (e : BitVec 9)

/-- The decoding matrix does not depend on `ERRLOG`. -/
theorem decodingMatrix_with_errlog : decodingMatrix { s with errlog := e } = decodingMatrix s := rfl

theorem encodedByte_with_errlog : encodedByte { s with errlog := e } = encodedByte s := rfl

theorem reconData_with_errlog (sel : List Slot) (dec : Mat) :
    reconData sel dec { s with errlog := e } = { reconData sel dec s with errlog := e } := rfl

/-- The effect of `RECON` does not depend on `ERRLOG`. -/
theorem reconEffect_with_errlog (mode : Mode) (sel : List Slot) (dec : Mat) :
    reconEffect mode sel dec { s with errlog := e } =
      { reconEffect mode sel dec s with errlog := e } := by
  cases mode <;> simp only [reconEffect, reconData_with_errlog, encodedByte_with_errlog] <;> rfl

end

/-- No command but `CSRRD` depends on `ERRLOG` (R16). -/
theorem exec_sameButErrlog {i : Instr} (hi : ∀ sel, i ≠ .csrrd sel) (s : State) (e : BitVec 9) :
    SameButErrlog (exec i s) (exec i { s with errlog := e }) := by
  have hraise := sameButErrlog_raise s e
  have hrespond := sameButErrlog_respond s e
  cases i with
  | nop => exact hrespond 0
  | gfadd x y => exact hrespond _
  | gfmul x y => exact hrespond _
  | gfdiv x y =>
    simp only [exec, execGfdiv]
    cases gfDiv x y with
    | none => exact hraise .domain
    | some q => exact hrespond _
  | gfinv x =>
    simp only [exec, execGfinv]
    cases gfInv x with
    | none => exact hraise .domain
    | some q => exact hrespond _
  | config kind n m len =>
    exact .ite (hraise .parameter) (sameButErrlog_respond { s with cfg := _, gen := _, decv := _ } e 0)
  | csrrd sel => exact absurd rfl (hi sel)
  | genrd row col => exact .ite (hraise .sequence) (.ite (hraise .range) (hrespond _))
  | mkdec =>
    refine .ite (hraise .sequence) ?_
    rw [decodingMatrix_with_errlog s e]
    cases decodingMatrix s with
    | error k => exact hraise k
    | ok d => exact sameButErrlog_respond { s with sel := d.1, dec := d.2, decv := true } e 0
  | decrd row col => exact .ite (hraise .sequence) (.ite (hraise .range) (hrespond _))
  | selrd k => exact .ite (hraise .sequence) (.ite (hraise .range) (hrespond _))
  | shwr slot off val => exact sameButErrlog_respond (memWrite s (addrOf slot off) val) e 0
  | shrd slot off => exact hrespond _
  | shset slot len pres => exact sameButErrlog_respond (setDesc s slot pres len) e 0
  | shget slot => exact sameButErrlog_respondWith s e _ _
  | encode cnt =>
    exact .ite (hraise .sequence) (.ite (hraise .shape) (.ite (hraise .shape)
      (sameButErrlog_respond (encodeEffect s) e 0)))
  | recon mode cnt =>
    refine .ite (hraise .sequence) (.ite (hraise .shape) (.ite (hraise .shape) ?_))
    rw [decodingMatrix_with_errlog s e]
    cases decodingMatrix s with
    | error k => exact hraise k
    | ok d => exact ⟨_, e, rfl, congrArg (respond 0) (reconEffect_with_errlog s e mode d.1 d.2)⟩

/-- Settles O15: the log's bits after a command word, its reset value, and that two runs which differ in
`ERRLOG` beforehand differ in nothing else. -/
theorem errlogRecordsExactlyTheErrors : Obligations.ErrlogRecordsExactlyTheErrors :=
  ⟨fun _ _ _ h => step_command_errlog h, rfl, fun _ s e hi => exec_sameButErrlog hi s e⟩

end Sys2Proof.Machine

namespace Sys2Proof.Machine

/-! ### The engine's window (R45)

The engine's two writes, `storeShards` and `markPresent`, on slots below N + M, each change nothing
outside the window; the effects of the engine's commands are chains of them. -/

/-- Outside the window of slots below `total` and offsets below `len`, the two states hold the same
bytes and descriptors. A descriptor has no offset, so only its slot counts. -/
structure SameOutsideWindow (total len : Nat) (s t : State) : Prop where
  byte : ∀ (slot : Slot) (off : Half), total ≤ slot.toNat ∨ len ≤ off.toNat →
    readShard t slot off = readShard s slot off
  desc : ∀ slot : Slot, total ≤ slot.toNat → descOf t.desc slot = descOf s.desc slot

section
variable {total len : Nat} {s t u : State}

/-- The window does not see fields other than the store, its draw of unwritten bytes and the
descriptors. -/
theorem SameOutsideWindow.of_eq (hmem : t.mem = s.mem) (hresets : t.resets = s.resets)
    (hdesc : t.desc = s.desc) : SameOutsideWindow total len s t where
  byte slot off _ := readShard_congr hmem hresets slot off
  desc slot _ := by rw [hdesc]

theorem SameOutsideWindow.trans (hst : SameOutsideWindow total len s t)
    (htu : SameOutsideWindow total len t u) : SameOutsideWindow total len s u where
  byte slot off hout := (htu.byte slot off hout).trans (hst.byte slot off hout)
  desc slot hout := (htu.desc slot hout).trans (hst.desc slot hout)

theorem SameOutsideWindow.answer (h : SameOutsideWindow total len s t) (r : RspWord) :
    SameOutsideWindow total len s (answer t r) :=
  h.trans (.of_eq rfl rfl rfl)

section
variable {slots : List Nat} (htotal : total ≤ 256) (hslots : ∀ p ∈ slots, p < total)
include htotal hslots

/-- The premise `total ≤ 256` keeps slot numbers from wrapping into other slots. -/
theorem SameOutsideWindow.storeShards (h : SameOutsideWindow total len s t) (hlen : shardLen t = len)
    (f : Nat → Nat → Byte) : SameOutsideWindow total len s (storeShards t slots f) := by
  refine h.trans ⟨fun slot off hout => ?_, fun slot _ => rfl⟩
  refine readShard_storeShards_outside (fun p hp => (hslots p hp).trans_le htotal) ?_
  rintro ⟨hmem, hoff⟩
  have hslot := hslots _ hmem
  omega

theorem SameOutsideWindow.markPresent (h : SameOutsideWindow total len s t) :
    SameOutsideWindow total len s (markPresent t slots) := by
  refine h.trans ⟨fun slot off _ => rfl, fun slot hout => ?_⟩
  rw [descOf_markPresent (fun p hp => (hslots p hp).trans_le htotal),
    if_neg fun hmem => (hslots _ hmem).not_ge hout]

end

end

section
variable {s : State} (htotal : numData s + numParity s ≤ 256)
include htotal

theorem encodeEffect_sameOutsideWindow :
    SameOutsideWindow (numData s + numParity s) (shardLen s) s (encodeEffect s) := by
  have hparity : ∀ p ∈ paritySlots s, p < numData s + numParity s := fun p hp =>
    (mem_paritySlots.mp hp).2
  have hsame : SameOutsideWindow (numData s + numParity s) (shardLen s) s s := .of_eq rfl rfl rfl
  exact (hsame.storeShards htotal hparity rfl _).markPresent htotal hparity

/-- Both phases write erased slots only, and those lie below N + M. -/
theorem reconEffect_sameOutsideWindow (mode : Mode) (sel : List Slot) (dec : Mat) :
    SameOutsideWindow (numData s + numParity s) (shardLen s) s (reconEffect mode sel dec s) := by
  have hdata : ∀ d ∈ erasedData s, d < numData s + numParity s := fun d hd =>
    Nat.lt_add_right _ (mem_erasedData.mp hd).1
  have hparity : ∀ p ∈ erasedParity s, p < numData s + numParity s := fun p hp =>
    (mem_erasedParity.mp hp).1.2
  have hsel : SameOutsideWindow (numData s + numParity s) (shardLen s) s
    { s with sel := sel, dec := dec, decv := true } := .of_eq rfl rfl rfl
  have hphase : SameOutsideWindow (numData s + numParity s) (shardLen s) s (reconData sel dec s) :=
    hsel.storeShards htotal hdata rfl _
  cases mode with
  | all =>
    exact ((hphase.storeShards htotal hparity rfl _).markPresent htotal hparity).markPresent
      htotal hdata
  | data => exact hphase.markPresent htotal hdata

/-- What the engine's commands change lies in the window, however they end (R45). -/
theorem exec_engine_sameOutsideWindow {i : Instr} {t : State} (hexec : exec i s = .next t)
    (hi : i = .mkdec ∨ (∃ cnt, i = .encode cnt) ∨ (∃ mode cnt, i = .recon mode cnt)) :
    SameOutsideWindow (numData s + numParity s) (shardLen s) s t := by
  obtain ⟨e, rfl⟩ | ⟨s', p, val, rfl, heff⟩ := exec_next_cases hexec
  · exact .of_eq rfl rfl rfl
  · refine SameOutsideWindow.answer ?_ _
    obtain rfl | ⟨cnt, rfl⟩ | ⟨mode, cnt, rfl⟩ := hi
    · obtain ⟨-, sel, dec, -, rfl⟩ := heff
      exact .of_eq rfl rfl rfl
    · obtain ⟨-, rfl⟩ := heff
      exact encodeEffect_sameOutsideWindow htotal
    · obtain ⟨-, sel, dec, -, rfl⟩ := heff
      exact reconEffect_sameOutsideWindow htotal mode sel dec

end

/-- Settles O20: the states before and after agree outside the window, and a descriptor is the
presence flag with the length. -/
theorem engineStaysInItsWindow : Obligations.EngineStaysInItsWindow := by
  intro i s t htotal hexec hi
  obtain ⟨hbyte, hdesc⟩ := exec_engine_sameOutsideWindow htotal hexec hi
  exact ⟨hbyte, fun slot hslot =>
    ⟨congrArg Desc.pres (hdesc slot hslot), congrArg Desc.len (hdesc slot hslot)⟩⟩

end Sys2Proof.Machine

namespace Sys2Proof

/-! ### The formats as equations on fields (R61)

A word is a concatenation exactly when each of its fields is the part in that place. From this, one
equivalence per format: it says both what the fields of a packed word are and when a word is packed. -/

theorem extractLsb'_eq_append_iff {k m n start : Nat} {w : BitVec k} {hi : BitVec m} {lo : BitVec n} :
    w.extractLsb' start (m + n) = hi ++ lo ↔
      w.extractLsb' (start + n) m = hi ∧ w.extractLsb' start n = lo := by
  rw [← BitVec.extractLsb'_append_extractLsb'_eq_extractLsb' (x := w) (start₁ := start) rfl]
  constructor
  · intro h
    have hhi := congrArg (BitVec.extractLsb' n m) h
    have hlo := congrArg (BitVec.extractLsb' 0 n) h
    rw [BitVec.extractLsb'_append_eq_left, BitVec.extractLsb'_append_eq_left] at hhi
    rw [BitVec.extractLsb'_append_eq_right, BitVec.extractLsb'_append_eq_right] at hlo
    exact ⟨hhi, hlo⟩
  · rintro ⟨rfl, rfl⟩
    rfl

theorem eq_iff_extractLsb'_zero {k : Nat} {w v : BitVec k} : w = v ↔ w.extractLsb' 0 k = v := by
  rw [BitVec.extractLsb'_eq_self]

theorem extractLsb'_one_eq_ofBool_iff {k start : Nat} {w : BitVec k} {b : Bool} :
    w.extractLsb' start 1 = BitVec.ofBool b ↔ w.getLsbD start = b := by
  rw [BitVec.eq_of_getLsbD_eq_iff]
  constructor
  · intro h
    simpa using h 0 one_pos
  · rintro rfl i hi
    obtain rfl : i = 0 := by omega
    simp

section
variable {w : CmdWord}

theorem getLsbD_eq_cauchy_iff {kind : Kind} :
    w.getLsbD 48 = (kind == .cauchy) ↔ fieldKind w = kind := by
  unfold fieldKind
  generalize w.getLsbD 48 = b
  cases b <;> cases kind <;> decide

theorem getLsbD_eq_data_iff {mode : Mode} :
    w.getLsbD 48 = (mode == .data) ↔ fieldMode w = mode := by
  unfold fieldMode
  generalize w.getLsbD 48 = b
  cases b <;> cases mode <;> decide

theorem eq_packA_iff {op a : Byte} :
    w = packA op a ↔ fieldOp w = op ∧ fieldA w = a ∧ w.extractLsb' 0 48 = 0 := by
  refine (eq_iff_extractLsb'_zero (k := 8 + 8 + 48)).trans ?_
  simp only [packA, extractLsb'_eq_append_iff, and_assoc]
  exact Iff.rfl

theorem eq_packB_iff {op a b : Byte} :
    w = packB op a b ↔
      fieldOp w = op ∧ fieldA w = a ∧ fieldB w = b ∧ w.extractLsb' 0 40 = 0 := by
  refine (eq_iff_extractLsb'_zero (k := 8 + 8 + 8 + 40)).trans ?_
  simp only [packB, extractLsb'_eq_append_iff, and_assoc]
  exact Iff.rfl

theorem eq_packC_iff {op : Byte} {kind : Kind} {n m len : Half} :
    w = packC op kind n m len ↔
      fieldOp w = op ∧ w.extractLsb' 49 7 = 0 ∧ fieldKind w = kind ∧ fieldN w = n ∧
        fieldM w = m ∧ fieldLen w = len := by
  rw [← getLsbD_eq_cauchy_iff]
  refine (eq_iff_extractLsb'_zero (k := 8 + 7 + 1 + 16 + 16 + 16)).trans ?_
  simp only [packC, extractLsb'_eq_append_iff, extractLsb'_one_eq_ofBool_iff, and_assoc]
  exact Iff.rfl

theorem eq_packS_iff {op : Byte} {slot : Slot} {off : Half} {val : Byte} :
    w = packS op slot off val ↔
      fieldOp w = op ∧ fieldSlot w = slot ∧ fieldOff w = off ∧ fieldVal w = val ∧
        w.extractLsb' 0 24 = 0 := by
  refine (eq_iff_extractLsb'_zero (k := 8 + 8 + 16 + 8 + 24)).trans ?_
  simp only [packS, extractLsb'_eq_append_iff, and_assoc]
  exact Iff.rfl

theorem eq_packD_iff {op : Byte} {slot : Slot} {len : Half} {pres : Bool} :
    w = packD op slot len pres ↔
      fieldOp w = op ∧ fieldSlot w = slot ∧ fieldDescLen w = len ∧ w.extractLsb' 25 7 = 0 ∧
        fieldPres w = pres ∧ w.extractLsb' 0 24 = 0 := by
  refine (eq_iff_extractLsb'_zero (k := 8 + 8 + 16 + 7 + 1 + 24)).trans ?_
  simp only [packD, extractLsb'_eq_append_iff, extractLsb'_one_eq_ofBool_iff, and_assoc]
  exact Iff.rfl

theorem eq_packE_iff {op : Byte} {mode : Mode} {cnt : Half} :
    w = packE op mode cnt ↔
      fieldOp w = op ∧ w.extractLsb' 49 7 = 0 ∧ fieldMode w = mode ∧ fieldCnt w = cnt ∧
        w.extractLsb' 0 32 = 0 := by
  rw [← getLsbD_eq_data_iff]
  refine (eq_iff_extractLsb'_zero (k := 8 + 7 + 1 + 16 + 32)).trans ?_
  simp only [packE, extractLsb'_eq_append_iff, extractLsb'_one_eq_ofBool_iff, and_assoc]
  exact Iff.rfl

end

theorem fields_packA (op a : Byte) : fieldOp (packA op a) = op ∧ fieldA (packA op a) = a := by
  obtain ⟨hop, ha, -⟩ := eq_packA_iff.mp (Eq.refl (packA op a))
  exact ⟨hop, ha⟩

theorem fields_packB (op a b : Byte) :
    fieldOp (packB op a b) = op ∧ fieldA (packB op a b) = a ∧ fieldB (packB op a b) = b := by
  obtain ⟨hop, ha, hb, -⟩ := eq_packB_iff.mp (Eq.refl (packB op a b))
  exact ⟨hop, ha, hb⟩

theorem fields_packC (op : Byte) (kind : Kind) (n m len : Half) :
    fieldOp (packC op kind n m len) = op ∧ fieldKind (packC op kind n m len) = kind ∧
      fieldN (packC op kind n m len) = n ∧ fieldM (packC op kind n m len) = m ∧
      fieldLen (packC op kind n m len) = len := by
  obtain ⟨hop, -, hfields⟩ := eq_packC_iff.mp (Eq.refl (packC op kind n m len))
  exact ⟨hop, hfields⟩

theorem fields_packS (op : Byte) (slot : Slot) (off : Half) (val : Byte) :
    fieldOp (packS op slot off val) = op ∧ fieldSlot (packS op slot off val) = slot ∧
      fieldOff (packS op slot off val) = off ∧ fieldVal (packS op slot off val) = val := by
  obtain ⟨hop, hslot, hoff, hval, -⟩ := eq_packS_iff.mp (Eq.refl (packS op slot off val))
  exact ⟨hop, hslot, hoff, hval⟩

theorem fields_packD (op : Byte) (slot : Slot) (len : Half) (pres : Bool) :
    fieldOp (packD op slot len pres) = op ∧ fieldSlot (packD op slot len pres) = slot ∧
      fieldDescLen (packD op slot len pres) = len ∧ fieldPres (packD op slot len pres) = pres := by
  obtain ⟨hop, hslot, hlen, -, hpres, -⟩ := eq_packD_iff.mp (Eq.refl (packD op slot len pres))
  exact ⟨hop, hslot, hlen, hpres⟩

theorem fields_packE (op : Byte) (mode : Mode) (cnt : Half) :
    fieldOp (packE op mode cnt) = op ∧ fieldMode (packE op mode cnt) = mode ∧
      fieldCnt (packE op mode cnt) = cnt := by
  obtain ⟨hop, -, hmode, hcnt, -⟩ := eq_packE_iff.mp (Eq.refl (packE op mode cnt))
  exact ⟨hop, hmode, hcnt⟩

/-! ### The rows of the opcode table (R64) -/

/-- An arm of the decoder accepts a word exactly when the word matches the arm's row. -/
theorem checkReserved_eq_ok_iff {w pattern mask : CmdWord} {i j : Instr} :
    checkReserved w pattern mask i = .ok j ↔ w &&& mask = pattern ∧ i = j := by
  unfold checkReserved
  split_ifs with h <;> simp [h]

/-- A field that a row's mask covers whole holds what the row's pattern has there. -/
theorem field_of_masked {w mask pattern : CmdWord} (hm : w &&& mask = pattern) {start len : Nat}
    {v : BitVec len} (hmask : mask.extractLsb' start len = BitVec.allOnes len)
    (hpattern : pattern.extractLsb' start len = v) : w.extractLsb' start len = v := by
  rw [← hpattern, ← hm, BitVec.extractLsb'_and, hmask, BitVec.and_allOnes]

/-- Every mask of the table covers the opcode. -/
theorem fieldOp_of_matchesWord {row : OpcodeRow} (hrow : row ∈ opcodeTable) {w : CmdWord}
    (hm : row.matchesWord w = true) : fieldOp w = fieldOp row.pattern := by
  have hmask : ∀ row ∈ opcodeTable, fieldOp row.mask = BitVec.allOnes 8 := by decide
  exact field_of_masked (beq_iff_eq.mp hm) (hmask row hrow) rfl

/-- Settles O4: a word that matches two rows has the opcode of both, and the opcodes of the table are
pairwise different. -/
theorem opcodeRowsAreExclusive : Obligations.OpcodeRowsAreExclusive := by
  intro w r1 r2 hr1 hr2 hm1 hm2
  have hdistinct : ∀ r1 ∈ opcodeTable, ∀ r2 ∈ opcodeTable,
      fieldOp r1.pattern = fieldOp r2.pattern → r1 = r2 := by decide
  exact hdistinct r1 hr1 r2 hr2
    ((fieldOp_of_matchesWord hr1 hm1).symm.trans (fieldOp_of_matchesWord hr2 hm2))

/-! ### Decoding and encoding are inverse (R61, R65, R66) -/

/-- The opcode of a row selects the decoder's arm for it, and the arm checks the row's own mask. -/
theorem decode_of_wellFormedWord {w : CmdWord} (h : wellFormedWord w = true) :
    ∃ i, decode w = .ok i := by
  obtain ⟨row, hrow, hmatch⟩ := List.any_eq_true.mp h
  have hop := fieldOp_of_matchesWord hrow hmatch
  have hm : w &&& row.mask = row.pattern := beq_iff_eq.mp hmatch
  simp only [opcodeTable, List.mem_cons, List.not_mem_nil, or_false] at hrow
  rcases hrow with rfl | rfl | rfl | rfl | rfl | rfl | rfl | rfl | rfl | rfl | rfl | rfl | rfl | rfl |
    rfl | rfl | rfl <;>
  · rw [decode, hop]
    exact ⟨_, checkReserved_eq_ok_iff.mpr ⟨hm, rfl⟩⟩

theorem wellFormedWord_encode (i : Instr) : wellFormedWord (encode i) = true := by
  cases i with
  | nop => exact Laws.EncodedWord.nop.2
  | gfadd x y => exact (Laws.EncodedWord.gfadd x y).2
  | gfmul x y => exact (Laws.EncodedWord.gfmul x y).2
  | gfdiv x y => exact (Laws.EncodedWord.gfdiv x y).2
  | gfinv x => exact (Laws.EncodedWord.gfinv x).2
  | config kind n m len => exact (Laws.EncodedWord.config kind n m len).2
  | csrrd sel => exact (Laws.EncodedWord.csrrd sel).2
  | genrd row col => exact (Laws.EncodedWord.genrd row col).2
  | mkdec => exact Laws.EncodedWord.mkdec.2
  | decrd row col => exact (Laws.EncodedWord.decrd row col).2
  | selrd k => exact (Laws.EncodedWord.selrd k).2
  | shwr slot off val => exact (Laws.EncodedWord.shwr slot off val).2
  | shrd slot off => exact (Laws.EncodedWord.shrd slot off).2
  | shset slot len pres => exact (Laws.EncodedWord.shset slot len pres).2
  | shget slot => exact (Laws.EncodedWord.shget slot).2
  | encode cnt => exact (Laws.EncodedWord.encode cnt).2
  | recon mode cnt => exact (Laws.EncodedWord.recon mode cnt).2

/-- If the decoder accepts an encoding at all, it reads back the command and its operands. -/
theorem eq_of_decode_encode {i j : Instr} (h : decode (encode i) = .ok j) : j = i := by
  cases i with
  | nop | mkdec => exact (Except.ok.inj h).symm
  | gfadd | gfmul | gfdiv | gfinv | config | csrrd | genrd | decrd | selrd | shwr | shrd | shset | shget
  | encode | recon =>
    simp only [encode, decode, fields_packA, fields_packB, fields_packC, fields_packS, fields_packD,
      fields_packE, BitVec.reduceToNat, checkReserved_eq_ok_iff] at h
    exact h.2.symm

/-- The encoding is a legal word, so it decodes, and what it decodes to is the command. -/
theorem decode_encode (i : Instr) : decode (encode i) = .ok i := by
  obtain ⟨j, hj⟩ := decode_of_wellFormedWord (wellFormedWord_encode i)
  rwa [eq_of_decode_encode hj] at hj

/-- Settles O1. No instruction needs its well-formedness: every operand value is legal (R62). -/
theorem decodeOfEncodeIsIdentity : Obligations.DecodeOfEncodeIsIdentity :=
  fun i _ => decode_encode i

/-- The decoder's arms read backwards, format by format: the row's mask gives the opcode and the reserved
fields, and the operands are the fields themselves. -/
theorem encode_of_decode {w : CmdWord} {i : Instr} (h : decode w = .ok i) : encode i = w := by
  unfold decode at h
  split at h
  case h_18 => exact nomatch h
  all_goals
    obtain ⟨hm, rfl⟩ := checkReserved_eq_ok_iff.mp h
    symm
  -- `NOP`, the word 0
  case h_1 => exact eq_iff_extractLsb'_zero.mpr (field_of_masked hm rfl rfl)
  -- format A
  case h_5 | h_7 | h_11 | h_15 =>
    exact eq_packA_iff.mpr ⟨field_of_masked hm rfl rfl, rfl, field_of_masked hm rfl rfl⟩
  -- `MKDEC`, format A with the operand field reserved
  case h_9 =>
    exact eq_packA_iff.mpr ⟨field_of_masked hm rfl rfl, field_of_masked hm rfl rfl,
      field_of_masked hm rfl rfl⟩
  -- format B
  case h_2 | h_3 | h_4 | h_8 | h_10 =>
    exact eq_packB_iff.mpr ⟨field_of_masked hm rfl rfl, rfl, rfl, field_of_masked hm rfl rfl⟩
  -- format C
  case h_6 =>
    exact eq_packC_iff.mpr ⟨field_of_masked hm rfl rfl, field_of_masked hm rfl rfl, rfl, rfl, rfl, rfl⟩
  -- format S, where `SHRD` has the field `val` reserved
  case h_12 =>
    exact eq_packS_iff.mpr ⟨field_of_masked hm rfl rfl, rfl, rfl, rfl, field_of_masked hm rfl rfl⟩
  case h_13 =>
    exact eq_packS_iff.mpr ⟨field_of_masked hm rfl rfl, rfl, rfl, field_of_masked hm rfl rfl,
      field_of_masked hm rfl rfl⟩
  -- format D
  case h_14 =>
    exact eq_packD_iff.mpr ⟨field_of_masked hm rfl rfl, rfl, rfl, field_of_masked hm rfl rfl, rfl,
      field_of_masked hm rfl rfl⟩
  -- format E, where `ENCODE` has the field `mode` reserved
  case h_16 =>
    have hmode : w.extractLsb' 48 1 = BitVec.ofBool (Mode.all == .data) := field_of_masked hm rfl rfl
    exact eq_packE_iff.mpr ⟨field_of_masked hm rfl rfl, field_of_masked hm rfl rfl,
      getLsbD_eq_data_iff.mp (extractLsb'_one_eq_ofBool_iff.mp hmode), rfl, field_of_masked hm rfl rfl⟩
  case h_17 =>
    exact eq_packE_iff.mpr ⟨field_of_masked hm rfl rfl, field_of_masked hm rfl rfl, rfl, rfl,
      field_of_masked hm rfl rfl⟩

/-- Settles O2, by the decoder's arms read backwards. -/
theorem encodeOfDecodeIsIdentity : Obligations.EncodeOfDecodeIsIdentity :=
  fun _ _ h => encode_of_decode h

/-- Settles O3: a word that decodes is an encoding, hence a word of the table, and the decoder has an arm
for every row. -/
theorem legalWordsAreTableWords : Obligations.LegalWordsAreTableWords := by
  refine fun w => ⟨?_, decode_of_wellFormedWord⟩
  rintro ⟨i, hdec⟩
  rw [← encode_of_decode hdec]
  exact wellFormedWord_encode i

/-- Settles O5: each word is the encoding of its command. -/
theorem specExampleWordsDecode : Obligations.SpecExampleWordsDecode :=
  ⟨decode_encode (.gfmul 0x02 0x80), decode_encode (.config .vandermonde 4 2 8),
    decode_encode (.shwr 3 7 0x1F), decode_encode (.shset 1 8 true), decode_encode (.encode 4),
    decode_encode (.recon .all 6), decode_encode (.recon .data 6)⟩

end Sys2Proof

namespace Sys2Proof.Machine

/-! ### The response to a command word (R63, R65) -/

/-- Settles O7: a word outside the table does not decode, so the step raises `IllegalCommandError`, whose
bit of `ERRLOG` is bit 6 and whose response is 0x06000000. -/
theorem illegalWordIsAnswered : Obligations.IllegalWordIsAnswered := by
  intro s w rest hcmd hillegal
  obtain ⟨i, hdec, -⟩ | ⟨e, -, hstep⟩ := step_command hcmd
  · rw [(legalWordsAreTableWords w).mp ⟨i, hdec⟩] at hillegal
    contradiction
  · exact hstep

/-- The form of the response `r` to the word `w` in the state `s` (R63), the clauses of O13 by name. -/
structure IsResponseTo (s : State) (w : CmdWord) (r : RspWord) : Prop where
  reserved : rspReserved r = 0
  err_le : (rspErr r).toNat ≤ 8
  bare_of_err : rspErr r ≠ 0 → rspP r = false ∧ rspVal r = 0
  shget_of_p : rspP r = true → ∃ slot, decode w = .ok (.shget slot)
  p_of_shget : ∀ slot, decode w = .ok (.shget slot) → rspP r = isPresent s slot
  val_of_noResult : ∀ i, decode w = .ok i → hasResult i = false → rspVal r = 0

/-- The response that `raise` gives, for a word that is not `SHGET`, the one command with a `P`. -/
theorem isResponseTo_error {s : State} {w : CmdWord} (e : ErrorKind)
    (hw : ∀ slot, decode w ≠ .ok (.shget slot)) :
    IsResponseTo s w (responseWord (errorCode e) false 0) where
  reserved := rspReserved_responseWord _ _ _
  err_le := by
    rw [rspErr_responseWord]
    exact (errorCode_toNat_bounds e).2
  bare_of_err _ := ⟨rspP_responseWord _ _ _, rspVal_responseWord _ _ _⟩
  shget_of_p hp := by simp at hp
  p_of_shget slot hdec := absurd hdec (hw slot)
  val_of_noResult _ _ _ := rspVal_responseWord _ _ _

/-- The response of a command that ends without error, for a word that decodes to it. -/
theorem isResponseTo_answer {s : State} {w : CmdWord} {i : Instr} {p : Bool} {val : Half}
    (hdec : decode w = .ok i) (hp : p = true → ∃ slot, i = .shget slot)
    (hshget : ∀ slot, i = .shget slot → p = isPresent s slot)
    (hval : hasResult i = false → val = 0) : IsResponseTo s w (responseWord 0 p val) where
  reserved := rspReserved_responseWord _ _ _
  err_le := by simp
  bare_of_err herr := by simp at herr
  shget_of_p h := by
    obtain ⟨slot, rfl⟩ := hp (by simpa using h)
    exact ⟨slot, hdec⟩
  p_of_shget slot h := by
    rw [rspP_responseWord]
    exact hshget slot (Except.ok.inj (hdec.symm.trans h))
  val_of_noResult j h hj := by
    obtain rfl : i = j := Except.ok.inj (hdec.symm.trans h)
    rw [rspVal_responseWord]
    exact hval hj

/-- `SHGET` answers with the presence flag of its slot (R133). -/
theorem p_of_exec_shget {slot : Slot} {s s' : State} {p : Bool} {val : Half}
    (h : exec (.shget slot) s = respondWith p val s') (hrsp : s'.rspOut = s.rspOut) :
    p = isPresent s slot := by
  have hstate := Host.Outcome.next.inj (show respondWith (isPresent s slot) _ s = _ from h)
  have hr := eq_of_answer_rspOut hrsp (congrArg State.rspOut hstate).symm
  simpa using (congrArg rspP hr).symm

/-- Every step on a presented word takes it and adds one response of the right form. The three ends of the
step: the command raises an error, which `SHGET` never does; the command answers in the state of its
effect; or the word is illegal. -/
theorem step_command_response {s : State} {w : CmdWord} {rest : List HostEvent}
    (h : s.cmdIn = .command w :: rest) :
    ∃ (t : State) (r : RspWord), step s = .next t ∧ t.cmdIn = rest ∧ t.rspOut = s.rspOut ++ [r] ∧
      IsResponseTo s w r := by
  obtain ⟨i, hdec, hstep⟩ | ⟨e, hdec, hstep⟩ := step_command h
  · obtain ⟨e, hraise, herr⟩ | ⟨s', p, val, hans, heff, hp, hval⟩ :=
      exec_cases i { s with cmdIn := rest }
    · refine ⟨_, _, hstep.trans hraise, rfl, rfl, isResponseTo_error e fun slot hshget => ?_⟩
      obtain rfl : i = .shget slot := Except.ok.inj (hdec.symm.trans hshget)
      exact absurd herr List.not_mem_nil
    · obtain ⟨-, hcmd, hrsp, -⟩ := heff.leavesChannels
      refine ⟨_, responseWord 0 p val, hstep.trans hans, hcmd, by rw [answer_rspOut, hrsp],
        isResponseTo_answer hdec hp ?_ hval⟩
      rintro slot rfl
      have hpres := p_of_exec_shget hans hrsp
      exact hpres
  · refine ⟨_, _, hstep, rfl, rfl, isResponseTo_error .illegalCommand fun slot hshget => ?_⟩
    exact nomatch hdec.symm.trans hshget

/-- Settles O13: the form of the response, clause by clause. -/
theorem everyCommandWordGetsOneResponse : Obligations.EveryCommandWordGetsOneResponse := by
  intro s w rest hcmd
  obtain ⟨t, r, hstep, hin, hout, hform⟩ := step_command_response hcmd
  exact ⟨t, r, hstep, hin, hout, hform.reserved, hform.err_le, hform.bare_of_err, hform.shget_of_p,
    hform.p_of_shget, hform.val_of_noResult⟩

end Sys2Proof.Machine

namespace Sys2Proof.Machine

/-! ### Products with 0, with 1 and with ALPHA (R82) -/

@[simp] theorem xorSum_zero_terms (n : Nat) : xorSum n (fun _ => 0#8) = 0#8 := by
  induction n with
  | zero => rfl
  | succ n ih => simp [xorSum, ih]

@[simp] theorem xtimes_zero (i : Nat) : xtimes i 0#8 = 0#8 := by
  induction i with
  | zero => rfl
  | succ i ih => simp [xtimes, ih, xtime]

@[simp] theorem gfMul_zero (a : Byte) : gfMul a 0#8 = 0#8 := by simp [gfMul]

@[simp] theorem zero_gfMul (a : Byte) : gfMul 0#8 a = 0#8 := by simp [gfMul]

/-- Bit 0 is the only bit of 1, so the product is its one term `xtimes 0 a`. -/
@[simp] theorem gfMul_one (a : Byte) : gfMul a 1#8 = a := by simp [gfMul, xorSum, xtimes]

/-- Bit 1 is the only bit of ALPHA, so the product is its one term `xtimes 1 a`. -/
theorem gfMul_alpha (a : Byte) : gfMul a Config.alpha = xtime a := by
  simp [gfMul, xorSum, xtimes, Config.alpha]

/-- Below the degree of the field polynomial nothing is reduced: `xtime` only shifts. -/
theorem xtimes_one_eq_twoPow : ∀ i < 8, xtimes i 1#8 = BitVec.twoPow 8 i := by decide

/-- The sum of the powers of x that the low `n` bits of a byte stand for is those `n` bits. -/
theorem getLsbD_xorSum_twoPow (a : Byte) (n j : Nat) :
    (xorSum n (fun i => if a.getLsbD i then BitVec.twoPow 8 i else 0)).getLsbD j =
      (decide (j < n) && a.getLsbD j) := by
  induction n with
  | zero => simp [xorSum]
  | succ n ih =>
    rw [xorSum, BitVec.getLsbD_xor, ih]
    split <;> grind

@[simp] theorem one_gfMul (a : Byte) : gfMul 1#8 a = a := by
  have hbits : gfMul 1#8 a = xorSum 8 (fun i => if a.getLsbD i then BitVec.twoPow 8 i else 0) :=
    xorSum_congr fun i hi => by rw [xtimes_one_eq_twoPow i hi]
  refine BitVec.eq_of_getLsbD_eq fun j hj => ?_
  rw [hbits, getLsbD_xorSum_twoPow, decide_eq_true hj, Bool.true_and]

/-! ### Inverses and quotients (R84, R85) -/

/-- The table `INV`, each of its 255 entries multiplied out by the bit-level product. -/
theorem invTable_inverts :
    ∀ a : Byte, a ≠ 0 → (romRead invTable a.toNat).any (gfMul a · == 1) = true := by
  decide +kernel

@[simp] theorem gfInv_zero : gfInv 0#8 = none := rfl

theorem gfInv_eq_romRead {a q : Byte} (ha : a ≠ 0) (hq : romRead invTable a.toNat = some q) :
    gfInv a = some q := by
  have hdomain : (a == 0) = false := beq_false_of_ne ha
  rw [gfInv, inverseLut, hdomain, hq]
  rfl

/-- Every byte but 0 has an inverse, and its product with the byte is 1. -/
theorem exists_gfInv_of_ne_zero {a : Byte} (ha : a ≠ 0) :
    ∃ q, gfInv a = some q ∧ gfMul a q = 1 := by
  obtain ⟨q, hq, hmul⟩ := (Option.any_eq_true _ _).mp (invTable_inverts a ha)
  exact ⟨q, gfInv_eq_romRead ha hq, beq_iff_eq.mp hmul⟩

@[simp] theorem gfDiv_zero (a : Byte) : gfDiv a 0#8 = none := rfl

theorem gfDiv_of_gfInv {b q : Byte} (a : Byte) (h : gfInv b = some q) :
    gfDiv a b = some (gfMul a q) := by
  rw [gfDiv, h, Option.map_some]

/-! ### The tables `EXP` and `LOG` (R81) -/

/-- The recurrence of `EXP`, entry by entry. -/
theorem expTable_succ : ∀ i < 254, romRead expTable (i + 1) = (romRead expTable i).map xtime := by
  decide +kernel

/-- `EXP` holds the powers of ALPHA: its recurrence is theirs. -/
theorem expTable_eq_gfPow {i : Nat} (hi : i < 255) :
    romRead expTable i = some (gfPow Config.alpha i) := by
  induction i with
  | zero => rfl
  | succ i ih => rw [expTable_succ i (by omega), ih (by omega), Option.map_some, gfPow, gfMul_alpha]

/-- Every entry of `EXP`, looked up in `LOG`, gives its index back. -/
theorem logTable_of_expTable :
    ∀ i : Byte, (romRead expTable i.toNat).all (romRead logTable ·.toNat == some i) = true := by
  decide +kernel

/-- Every entry of `LOG`, looked up in `EXP`, gives its index back. -/
theorem expTable_of_logTable :
    ∀ v : Byte, (romRead logTable v.toNat).all (romRead expTable ·.toNat == some v) = true := by
  decide +kernel

/-- `LOG` is the inverse table of `EXP`. -/
theorem logTable_eq_some_iff (v i : Byte) :
    romRead logTable v.toNat = some i ↔ romRead expTable i.toNat = some v := by
  constructor
  · intro hlog
    exact beq_iff_eq.mp ((Option.all_eq_true _ _).mp (expTable_of_logTable v) i hlog)
  · intro hexp
    exact beq_iff_eq.mp ((Option.all_eq_true _ _).mp (logTable_of_expTable i) v hexp)

/-! ### The field's statements (R81, R86 to R90) -/

/-- Settles O26: the quotient is the product with the entry of `INV` at `y`, and the zero detector is
the only source of the error. -/
theorem gfdivAnswersQuotientOrDomainError : Obligations.GfdivAnswersQuotientOrDomainError := by
  refine fun x y s => ⟨decode_encode (.gfdiv x y), fun hy => ?_, ?_⟩
  · obtain ⟨q, hinv, hmul⟩ := exists_gfInv_of_ne_zero hy
    refine ⟨q, hmul, ?_⟩
    rw [exec, execGfdiv, gfDiv_of_gfInv x hinv]
    exact answers_respond _ s
  · rintro rfl
    exact fails_raise .domain s

/-- Settles O27: the same entry of `INV`, answered as it is. -/
theorem gfinvAnswersInverseOrDomainError : Obligations.GfinvAnswersInverseOrDomainError := by
  refine fun x s => ⟨decode_encode (.gfinv x), fun hx => ?_, ?_⟩
  · obtain ⟨q, hinv, hmul⟩ := exists_gfInv_of_ne_zero hx
    refine ⟨q, hmul, ?_⟩
    rw [exec, execGfinv, hinv]
    exact answers_respond _ s
  · rintro rfl
    exact fails_raise .domain s

/-- Settles O50: the recurrence of `EXP` makes its entries the powers of ALPHA, and each table looked up
in the other gives the index back. -/
theorem tablesHoldThePowersOfAlpha : Obligations.TablesHoldThePowersOfAlpha := by
  refine ⟨rfl, fun i hi => ?_, fun _ => expTable_eq_gfPow, rfl, rfl, logTable_eq_some_iff⟩
  have hv := expTable_eq_gfPow (i := i) (by omega)
  exact ⟨_, hv, by rw [expTable_succ i hi, hv, Option.map_some]⟩

/-- Settles O23: the all-zero word is the encoding of `NOP`. -/
theorem nopAnswersZero : Obligations.NopAnswersZero :=
  ⟨decode_encode .nop, answers_respond 0⟩

/-- Settles O24: the word is the encoding of `GFADD`, and the command only answers. -/
theorem gfaddAnswersSum : Obligations.GfaddAnswersSum :=
  fun x y s => ⟨decode_encode (.gfadd x y), answers_respond _ s⟩

/-- Settles O25: the word is the encoding of `GFMUL`, the command only answers, and the corner cases are
the products with 0 and with 1. -/
theorem gfmulAnswersProduct : Obligations.GfmulAnswersProduct :=
  ⟨fun x y s => ⟨decode_encode (.gfmul x y), answers_respond _ s⟩,
    fun x => ⟨gfMul_zero x, zero_gfMul x, gfMul_one x, one_gfMul x⟩, by decide, by decide, by decide⟩

end Sys2Proof.Machine

namespace Sys2Proof.Machine

/-! ### Field sums and `xtime` are additive (R8, R82) -/

theorem xorSum_xor (n : Nat) (f g : Nat → Byte) :
    xorSum n (fun i => f i ^^^ g i) = xorSum n f ^^^ xorSum n g := by
  induction n with
  | zero => simp [xorSum]
  | succ n ih =>
    rw [xorSum, xorSum, xorSum, ih]
    ac_rfl

/-- A function that keeps 0 and sums of two keeps field sums. -/
theorem map_xorSum {g : Byte → Byte} (hzero : g 0 = 0) (hxor : ∀ a b, g (a ^^^ b) = g a ^^^ g b)
    (n : Nat) (f : Nat → Byte) : g (xorSum n f) = xorSum n (fun i => g (f i)) := by
  induction n with
  | zero => exact hzero
  | succ n ih => rw [xorSum, xorSum, hxor, ih]

@[simp] theorem xtime_zero : xtime 0#8 = 0#8 := xtimes_zero 1

theorem xtime_xor (a b : Byte) : xtime (a ^^^ b) = xtime a ^^^ xtime b := by
  have hxtime (c : Byte) : xtime c = (c <<< 1) ^^^ (if c.getLsbD 7 then Config.polyLow else 0) := by
    unfold xtime
    split <;> simp
  have hpoly : (if (a.getLsbD 7 ^^ b.getLsbD 7) then Config.polyLow else 0) =
      (if a.getLsbD 7 then Config.polyLow else 0) ^^^ (if b.getLsbD 7 then Config.polyLow else 0) := by
    cases a.getLsbD 7 <;> cases b.getLsbD 7 <;> simp
  rw [hxtime, hxtime, hxtime, BitVec.getLsbD_xor, hpoly, BitVec.shiftLeft_xor_distrib]
  ac_rfl

theorem xtimes_xor (i : Nat) (a b : Byte) : xtimes i (a ^^^ b) = xtimes i a ^^^ xtimes i b := by
  induction i with
  | zero => rfl
  | succ i ih => rw [xtimes, xtimes, xtimes, ih, xtime_xor]

theorem xtimes_xtime (i : Nat) (a : Byte) : xtimes i (xtime a) = xtime (xtimes i a) := by
  induction i with
  | zero => rfl
  | succ i ih => rw [xtimes, xtimes, ih]

/-! ### The product is bilinear, and `xtime` moves through it -/

theorem xor_gfMul (a b c : Byte) : gfMul (a ^^^ b) c = gfMul a c ^^^ gfMul b c := by
  unfold gfMul
  rw [← xorSum_xor]
  refine xorSum_congr fun i _ => ?_
  rw [xtimes_xor]
  cases c.getLsbD i <;> simp

theorem gfMul_xor (a b c : Byte) : gfMul a (b ^^^ c) = gfMul a b ^^^ gfMul a c := by
  unfold gfMul
  rw [← xorSum_xor]
  refine xorSum_congr fun i _ => ?_
  rw [BitVec.getLsbD_xor]
  cases b.getLsbD i <;> cases c.getLsbD i <;> simp

theorem gfMul_xorSum (a : Byte) (n : Nat) (f : Nat → Byte) :
    gfMul a (xorSum n f) = xorSum n (fun i => gfMul a (f i)) :=
  map_xorSum (gfMul_zero a) (gfMul_xor a) n f

theorem xtime_gfMul (a b : Byte) : gfMul (xtime a) b = xtime (gfMul a b) := by
  unfold gfMul
  rw [map_xorSum xtime_zero xtime_xor]
  refine xorSum_congr fun i _ => ?_
  rw [xtimes_xtime]
  split
  · rfl
  · exact xtime_zero.symm

/-- Every byte comes from 0 and 1 by sums and `xtime`: it is the sum of the powers of x that its bits
stand for. -/
theorem byte_induction {P : Byte → Prop} (zero : P 0) (one : P 1)
    (xor : ∀ a b, P a → P b → P (a ^^^ b)) (xtime : ∀ a, P a → P (xtime a)) (a : Byte) : P a := by
  have hpow (i : Nat) : P (xtimes i 1) := by
    induction i with
    | zero => exact one
    | succ i ih => exact xtime _ ih
  have hsum (n : Nat) : P (xorSum n (fun i => if a.getLsbD i then xtimes i 1 else 0)) := by
    induction n with
    | zero => exact zero
    | succ n ih =>
      refine xor _ _ ih ?_
      beta_reduce
      split
      · exact hpow n
      · exact zero
  rw [← one_gfMul a]
  exact hsum 8

theorem gfMul_xtime (a b : Byte) : gfMul a (xtime b) = xtime (gfMul a b) := by
  induction a using byte_induction with
  | zero => simp
  | one => simp
  | xor a a' ha ha' => rw [xor_gfMul, xor_gfMul, xtime_xor, ha, ha']
  | xtime a ha => rw [xtime_gfMul, xtime_gfMul, ha]

theorem gfMul_comm (a b : Byte) : gfMul a b = gfMul b a := by
  induction a using byte_induction with
  | zero => simp
  | one => simp
  | xor a a' ha ha' => rw [xor_gfMul, gfMul_xor, ha, ha']
  | xtime a ha => rw [xtime_gfMul, gfMul_xtime, ha]

theorem gfMul_assoc (a b c : Byte) : gfMul (gfMul a b) c = gfMul a (gfMul b c) := by
  induction a using byte_induction with
  | zero => simp
  | one => simp
  | xor a a' ha ha' => rw [xor_gfMul, xor_gfMul, xor_gfMul, ha, ha']
  | xtime a ha => rw [xtime_gfMul, xtime_gfMul, xtime_gfMul, ha]

/-- The inverse unit's output is the inverse, for every input but 0 (R84). -/
theorem gfMul_inverseLut {a : Byte} (ha : a ≠ 0) : gfMul a (inverseLut a).q = 1 := by
  obtain ⟨q, hinv, hmul⟩ := exists_gfInv_of_ne_zero ha
  have hdomain : (inverseLut a).domainErr = false := beq_false_of_ne ha
  have hq : (inverseLut a).q = q := by simpa [gfInv, hdomain] using hinv
  rw [hq, hmul]

/-- A byte with an inverse is no divisor of zero. -/
theorem eq_zero_of_gfMul_eq_zero {u y a : Byte} (hinv : gfMul u y = 1) (h : gfMul u a = 0) :
    a = 0 := by
  calc a = gfMul (gfMul u y) a := by rw [hinv]; simp
    _ = gfMul y (gfMul u a) := by rw [gfMul_comm u y, gfMul_assoc]
    _ = 0 := by rw [h]; simp

/-! ### The bytes are a field

The bytes with the model's sum and product, read as a field of Mathlib, so that its theorems on powers and
on matrices speak of the model. -/

/-- The byte as an element of the field: the same eight bits, with none of the ring operations that bit
vectors have of their own. -/
def GfElem : Type := Byte

/-- The field of the bytes (R80, R82, R84). -/
@[reducible] def gfField : Field GfElem :=
  letI : Add GfElem := ⟨gfAdd⟩
  letI : Mul GfElem := ⟨gfMul⟩
  letI : Neg GfElem := ⟨id⟩
  letI : Inv GfElem := ⟨fun a => (gfInv a).getD (0 : Byte)⟩
  letI : Zero GfElem := ⟨(0 : Byte)⟩
  letI : One GfElem := ⟨(1 : Byte)⟩
  Field.ofMinimalAxioms GfElem
    (add_assoc := BitVec.xor_assoc (w := 8))
    (zero_add := fun _ => BitVec.zero_xor)
    (neg_add_cancel := fun _ => BitVec.xor_self)
    (mul_assoc := gfMul_assoc)
    (mul_comm := gfMul_comm)
    (one_mul := one_gfMul)
    (mul_inv_cancel := fun a ha => by
      obtain ⟨q, hinv, hmul⟩ := exists_gfInv_of_ne_zero (a := a) ha
      change gfMul a ((gfInv a).getD 0) = 1
      rw [hinv]
      exact hmul)
    (inv_zero := rfl)
    (left_distrib := gfMul_xor)
    (exists_pair_ne := ⟨(0 : Byte), (1 : Byte), show (0 : Byte) ≠ 1 by decide⟩)

/-- The bytes read as elements of a field `F`, one for one, sums as sums and products as products. -/
structure FieldReading (F : Type) [Field F] where
  toFun : Byte → F
  injective : Function.Injective toFun
  map_xor : ∀ a b, toFun (a ^^^ b) = toFun a + toFun b
  map_gfMul : ∀ a b, toFun (gfMul a b) = toFun a * toFun b
  map_one : toFun 1 = 1

theorem exists_fieldReading : ∃ (F : Type) (_ : Field F), Nonempty (FieldReading F) :=
  ⟨GfElem, gfField, ⟨@FieldReading.mk GfElem gfField id Function.injective_id (fun _ _ => rfl)
    (fun _ _ => rfl) rfl⟩⟩

namespace FieldReading
variable {F : Type} [Field F] (φ : FieldReading F)

theorem map_zero : φ.toFun 0 = 0 := by
  have h := φ.map_xor 0 0
  rwa [BitVec.xor_self, BitVec.ofNat_eq_ofNat, left_eq_add] at h

theorem map_gfPow (x : Byte) (e : Nat) : φ.toFun (gfPow x e) = φ.toFun x ^ e := by
  induction e with
  | zero => rw [gfPow, φ.map_one, pow_zero]
  | succ e ih => rw [gfPow, φ.map_gfMul, ih, pow_succ]

theorem map_xorSum (n : Nat) (f : Nat → Byte) :
    φ.toFun (xorSum n f) = ∑ i : Fin n, φ.toFun (f i) := by
  induction n with
  | zero => exact φ.map_zero
  | succ n ih => rw [xorSum, φ.map_xor, ih, Fin.sum_univ_castSucc]; rfl

end FieldReading

/-! ### Powers by the tables (R101) -/

theorem isSome_logTable : ∀ x : Byte, x ≠ 0 → (romRead logTable x.toNat).isSome = true := by
  decide +kernel

/-- Every byte but 0 is the power of ALPHA that `LOG` names (R81). -/
theorem exists_log_of_ne_zero {x : Byte} (hx : x ≠ 0) :
    ∃ l, romRead logTable x.toNat = some l ∧ gfPow Config.alpha l.toNat = x := by
  obtain ⟨l, hlog⟩ := Option.isSome_iff_exists.mp (isSome_logTable x hx)
  have hexp := (logTable_eq_some_iff x l).mp hlog
  have hl : l.toNat < 255 := by
    have hne : l.toNat ≠ 255 := by
      intro h255
      rw [h255] at hexp
      exact nomatch hexp
    omega
  exact ⟨l, hlog, Option.some.inj ((expTable_eq_gfPow hl).symm.trans hexp)⟩

/-- ALPHA has order 255: the last entry of `EXP` times ALPHA is 1 again. -/
theorem gfPow_alpha_255 : gfPow Config.alpha 255 = 1 := by
  have hlast : some 0x8E = some (gfPow Config.alpha 254) := expTable_eq_gfPow (i := 254) (by omega)
  rw [gfPow, ← Option.some.inj hlast]
  decide

theorem gfPow_alpha_mod (e : Nat) : gfPow Config.alpha (e % 255) = gfPow Config.alpha e := by
  obtain ⟨F, _, ⟨φ⟩⟩ := exists_fieldReading
  have hone : φ.toFun Config.alpha ^ 255 = 1 := by
    rw [← φ.map_gfPow, gfPow_alpha_255, φ.map_one]
  apply φ.injective
  rw [φ.map_gfPow, φ.map_gfPow, ← pow_eq_pow_mod e hone]

theorem gfPow_gfPow (x : Byte) (d e : Nat) : gfPow (gfPow x d) e = gfPow x (d * e) := by
  obtain ⟨F, _, ⟨φ⟩⟩ := exists_fieldReading
  apply φ.injective
  rw [φ.map_gfPow, φ.map_gfPow, φ.map_gfPow, pow_mul]

/-- Settles O52: exponents of ALPHA multiply, and count modulo 255 only. -/
theorem powersAgreeWithTables : Obligations.PowersAgreeWithTables := by
  intro x e
  unfold gfPowByTables
  split_ifs with he hx
  · rw [he, gfPow]
  · obtain ⟨d, rfl⟩ := Nat.exists_eq_succ_of_ne_zero he
    rw [hx, gfPow, BitVec.ofNat_eq_ofNat, gfMul_zero]
  · obtain ⟨l, hlog, hpow⟩ := exists_log_of_ne_zero hx
    have hentry := expTable_eq_gfPow (Nat.mod_lt (l.toNat * e) (by omega : 0 < 255))
    rw [hlog, ← hpow, gfPow_gfPow, ← gfPow_alpha_mod (l.toNat * e)]
    exact hentry

end Sys2Proof.Machine

namespace Sys2Proof.Machine

/-! ### Sums of products

A row of a matrix, read as a function of the column, times a column of coefficients (R8). -/

/-- The field sum of the products of the entries below `n`; `matMul` is made of these. -/
def gfDot (n : Nat) (a b : Nat → Byte) : Byte := xorSum n (fun j => gfMul (a j) (b j))

theorem gfDot_congr {n : Nat} {a a' b b' : Nat → Byte} (ha : ∀ j < n, a j = a' j)
    (hb : ∀ j < n, b j = b' j) : gfDot n a b = gfDot n a' b' :=
  xorSum_congr fun j hj => by rw [ha j hj, hb j hj]

theorem gfDot_comm (n : Nat) (a b : Nat → Byte) : gfDot n a b = gfDot n b a :=
  xorSum_congr fun _ _ => gfMul_comm _ _

theorem gfDot_xor_left (n : Nat) (a a' b : Nat → Byte) :
    gfDot n (fun j => a j ^^^ a' j) b = gfDot n a b ^^^ gfDot n a' b := by
  simp only [gfDot, xor_gfMul, xorSum_xor]

theorem gfDot_gfMul_left (n : Nat) (x : Byte) (a b : Nat → Byte) :
    gfDot n (fun j => gfMul x (a j)) b = gfMul x (gfDot n a b) := by
  simp only [gfDot, gfMul_assoc, gfMul_xorSum]

theorem xorSum_single {n c : Nat} (hc : c < n) (f : Nat → Byte) :
    xorSum n (fun j => if c = j then f j else 0) = f c := by
  induction n with
  | zero => omega
  | succ n ih =>
    rw [xorSum]
    by_cases hcn : c = n
    · subst hcn
      have hbefore : xorSum c (fun j => if c = j then f j else 0) = xorSum c (fun _ => 0#8) :=
        xorSum_congr fun j hj => if_neg (by omega)
      rw [hbefore]
      simp
    · rw [ih (by omega), if_neg hcn]
      simp

/-- A row of the identity picks out one coefficient. -/
theorem gfDot_unit {n c : Nat} (hc : c < n) (b : Nat → Byte) :
    gfDot n (fun j => if c = j then 1 else 0) b = b c := by
  have hterms : gfDot n (fun j => if c = j then 1 else 0) b =
      xorSum n (fun j => if c = j then b j else 0) :=
    xorSum_congr fun j _ => by beta_reduce; split <;> simp
  rw [hterms, xorSum_single hc]

theorem entry_matMul {r n c i j : Nat} (hi : i < r) (hj : j < c) (A B : Mat) :
    entry (matMul r n c A B) i j = gfDot n (entry A i) (fun t => entry B t j) :=
  entry_buildMat hi hj _

/-! ### Rows of the scratch operations (R106) -/

/-- The matrix has `r` rows, all of `c` entries. -/
structure HasShape (r c : Nat) (A : Mat) : Prop where
  rows : A.length = r
  cols : ∀ i < r, (matRow A i).length = c

theorem hasShape_buildMat (r c : Nat) (f : Nat → Nat → Byte) : HasShape r c (buildMat r c f) where
  rows := buildMat_length r c f
  cols i hi := by rw [matRow_buildMat hi, List.length_map, List.length_range]

theorem entry_eq_getElem {A : Mat} {i j : Nat} (hj : j < (matRow A i).length) :
    entry A i j = (matRow A i)[j] := by
  rw [entry, List.getElem?_eq_getElem hj, Option.getD_some]

theorem matRow_set {W : Mat} {i : Nat} (hi : i < W.length) (row : List Byte) (r : Nat) :
    matRow (W.set i row) r = if r = i then row else matRow W r := by
  unfold matRow
  split
  case isTrue h => rw [h, List.getElem?_set_self hi, Option.getD_some]
  case isFalse h => rw [List.getElem?_set_ne (Ne.symm h)]

theorem matRow_swapRows {W : Mat} {p c : Nat} (hp : p < W.length) (hc : c < W.length) (r : Nat) :
    matRow (swapRows p c W) r = matRow W (Equiv.swap c p r) := by
  rw [swapRows, matRow_set (by rwa [List.length_set]), matRow_set hp, Equiv.swap_apply_def]
  split_ifs <;> rfl

theorem matRow_clearColumn {W : Mat} {r : Nat} (hr : r < W.length) (c : Nat) :
    matRow (clearColumn c W) r =
      if r = c ∨ entry W r c = 0 then matRow W r
      else addScaled (entry W r c) (matRow W c) (matRow W r) := by
  simp [clearColumn, matRow, hr]

section
variable {k w c p : Nat} {W : Mat}

theorem swap_lt (hc : c < k) (hp : p < k) {r : Nat} (hr : r < k) : Equiv.swap c p r < k := by
  rw [Equiv.swap_apply_def]
  split_ifs <;> omega

theorem hasShape_swapRows (hW : HasShape k w W) (hp : p < k) (hc : c < k) :
    HasShape k w (swapRows p c W) where
  rows := by rw [length_swapRows, hW.rows]
  cols r hr := by
    rw [matRow_swapRows (hW.rows ▸ hp) (hW.rows ▸ hc)]
    exact hW.cols _ (swap_lt hc hp hr)

theorem entry_swapRows (hW : HasShape k w W) (hp : p < k) (hc : c < k) {r j : Nat} (hr : r < k)
    (hj : j < w) : entry (swapRows p c W) r j = entry W (Equiv.swap c p r) j := by
  have hrow := matRow_swapRows (hW.rows ▸ hp) (hW.rows ▸ hc) r
  have hj' : j < (matRow W (Equiv.swap c p r)).length := by rwa [hW.cols _ (swap_lt hc hp hr)]
  rw [entry_eq_getElem hj', entry_eq_getElem (hrow ▸ hj')]
  simp only [hrow]

theorem hasShape_scaleRow (hW : HasShape k w W) (hc : c < k) (x : Byte) :
    HasShape k w (W.set c (scaleRow x (matRow W c))) where
  rows := by rw [List.length_set, hW.rows]
  cols r hr := by
    rw [matRow_set (hW.rows ▸ hc)]
    split
    · rw [length_scaleRow, hW.cols c hc]
    · exact hW.cols r hr

theorem entry_scaleRow (hW : HasShape k w W) (hc : c < k) (x : Byte) {j : Nat} (hj : j < w) (r : Nat) :
    entry (W.set c (scaleRow x (matRow W c))) r j =
      if r = c then gfMul x (entry W c j) else entry W r j := by
  have hrow := matRow_set (hW.rows ▸ hc) (scaleRow x (matRow W c)) r
  rw [entry, hrow]
  split
  case isTrue h =>
    have hj' : j < (matRow W c).length := by rwa [hW.cols c hc]
    simp [scaleRow, entry, hj']
  case isFalse => rfl

theorem hasShape_clearColumn (hW : HasShape k w W) (hc : c < k) : HasShape k w (clearColumn c W) where
  rows := by rw [length_clearColumn, hW.rows]
  cols r hr := by
    rw [matRow_clearColumn (hW.rows ▸ hr)]
    split
    · exact hW.cols r hr
    · rw [length_addScaled, hW.cols r hr, hW.cols c hc, min_self]

/-- Where the entry in the column is 0 already, nothing is added, which is 0 times the row. -/
theorem entry_clearColumn (hW : HasShape k w W) (hc : c < k) {r j : Nat} (hr : r < k) (hj : j < w) :
    entry (clearColumn c W) r j =
      if r = c then entry W r j else entry W r j ^^^ gfMul (entry W r c) (entry W c j) := by
  have hjr : j < (matRow W r).length := by rwa [hW.cols r hr]
  have hjc : j < (matRow W c).length := by rwa [hW.cols c hc]
  rw [entry, matRow_clearColumn (hW.rows ▸ hr)]
  by_cases hrc : r = c
  · rw [if_pos (.inl hrc), if_pos hrc, entry]
  · rw [if_neg hrc]
    by_cases hzero : entry W r c = 0
    · rw [if_pos (.inr hzero), hzero, ← entry]
      simp
    · rw [if_neg (not_or.mpr ⟨hrc, hzero⟩)]
      simp [addScaled, gfAdd, entry, hjr, hjc]

end

/-! ### The turn of a column (R106) -/

/-- What the turn of column `c` does to the entries: row `c` becomes the multiple by `y` of the pivot
row `p`, which has 1 in the column, and a multiple of it is added to every other row, rows `c` and `p`
swapped, so that the entry in the column is 0. -/
structure IsTurn (k w c p : Nat) (y : Byte) (W W' : Mat) : Prop where
  pivot_ge : c ≤ p
  pivot_lt : p < k
  inv : gfMul (entry W p c) y = 1
  shape : HasShape k w W'
  pivotRow : ∀ j < w, entry W' c j = gfMul y (entry W p j)
  otherRow : ∀ r < k, r ≠ c → ∀ j < w, entry W' r j =
    entry W (Equiv.swap c p r) j ^^^ gfMul (entry W (Equiv.swap c p r) c) (entry W' c j)

theorem exists_isTurn_of_eliminate {k w c : Nat} {W W' : Mat} (hW : HasShape k w W) (hck : c < k)
    (hcw : c < w) (h : eliminate k c W = some W') : ∃ p y, IsTurn k w c p y W W' := by
  unfold eliminate at h
  split at h
  · exact nomatch h
  next p hpivot =>
  obtain ⟨hcp, hpk, hne⟩ := findPivot_some hpivot
  obtain rfl := Option.some.inj h
  have hS := hasShape_swapRows hW hpk hck
  have hN := hasShape_scaleRow hS hck (inverseLut (entry (swapRows p c W) c c)).q
  have hpiv (j : Nat) (hj : j < w) : entry (swapRows p c W) c j = entry W p j := by
    rw [entry_swapRows hW hpk hck hck hj, Equiv.swap_apply_left]
  refine ⟨p, (inverseLut (entry (swapRows p c W) c c)).q, hcp, hpk, ?_, hasShape_clearColumn hN hck,
    fun j hj => ?_, fun r hr hrc j hj => ?_⟩
  · rw [hpiv c hcw]
    exact gfMul_inverseLut hne
  · rw [entry_clearColumn hN hck hck hj, if_pos rfl, entry_scaleRow hS hck _ hj, if_pos rfl,
      hpiv j hj]
  · rw [entry_clearColumn hN hck hr hj, if_neg hrc, entry_clearColumn hN hck hck hj, if_pos rfl,
      entry_scaleRow hS hck _ hj, if_neg hrc, entry_scaleRow hS hck _ hcw, if_neg hrc,
      entry_swapRows hW hpk hck hr hj, entry_swapRows hW hpk hck hr hcw]

/-- The first `c` columns are those of the identity. -/
def UnitColumns (k c : Nat) (W : Mat) : Prop :=
  ∀ r < k, ∀ j < c, entry W r j = if r = j then 1 else 0

/-- The row of `A` beside `I_k`, or any sum of multiples of such rows: its left half is its right half
times `A`. -/
def RowSolves (k : Nat) (A : Mat) (row : Nat → Byte) : Prop :=
  ∀ j < k, row j = gfDot k (fun t => row (k + t)) (fun t => entry A t j)

/-- The left square of the matrix takes the column `v` to zero. -/
def Annihilates (k : Nat) (W : Mat) (v : Nat → Byte) : Prop := ∀ r < k, gfDot k (entry W r) v = 0

theorem RowSolves.scale {k : Nat} {A : Mat} {row : Nat → Byte} (h : RowSolves k A row) (x : Byte) :
    RowSolves k A (fun j => gfMul x (row j)) := by
  intro j hj
  beta_reduce
  rw [gfDot_gfMul_left, ← h j hj]

theorem RowSolves.xor {k : Nat} {A : Mat} {row row' : Nat → Byte} (h : RowSolves k A row)
    (h' : RowSolves k A row') : RowSolves k A (fun j => row j ^^^ row' j) := by
  intro j hj
  beta_reduce
  rw [gfDot_xor_left, ← h j hj, ← h' j hj]

theorem RowSolves.congr {k : Nat} {A : Mat} {row row' : Nat → Byte} (h : RowSolves k A row)
    (heq : ∀ j < 2 * k, row' j = row j) : RowSolves k A row' := by
  intro j hj
  rw [heq j (by omega), h j hj]
  exact gfDot_congr (fun t ht => (heq (k + t) (by omega)).symm) fun _ _ => rfl

namespace IsTurn
variable {k w c p : Nat} {y : Byte} {W W' : Mat} (h : IsTurn k w c p y W W')
include h

theorem unitColumns (hcw : c < w) (hW : UnitColumns k c W) : UnitColumns k (c + 1) W' := by
  obtain ⟨hcp, hpk, hinv, -, hpivot, hother⟩ := h
  have hone : entry W' c c = 1 := by rw [hpivot c hcw, gfMul_comm, hinv]
  intro r hr j hj
  obtain hjc | rfl : j < c ∨ j = c := by omega
  · have hzero : entry W' c j = 0 := by
      rw [hpivot j (by omega), hW p hpk j hjc, if_neg (by omega)]
      exact gfMul_zero y
    by_cases hrc : r = c
    · rw [hrc, hzero, if_neg (by omega)]
    · have hswap : Equiv.swap c p r = j ↔ r = j := by
        rw [Equiv.swap_apply_def]
        split_ifs <;> omega
      rw [hother r hr hrc j (by omega), hzero, hW _ (swap_lt (by omega) hpk hr) j hjc]
      simp [hswap]
  · by_cases hrc : r = j
    · rw [hrc, hone, if_pos rfl]
    · rw [hother r hr hrc j hcw, hone, if_neg hrc]
      simp

theorem rowSolves {A : Mat} (hck : c < k) (hw : w = 2 * k) (hW : ∀ r < k, RowSolves k A (entry W r)) :
    ∀ r < k, RowSolves k A (entry W' r) := by
  obtain ⟨-, hpk, -, -, hpivot, hother⟩ := h
  subst hw
  have hc : RowSolves k A (entry W' c) := ((hW p hpk).scale y).congr hpivot
  intro r hr
  by_cases hrc : r = c
  · rwa [hrc]
  · exact ((hW _ (swap_lt hck hpk hr)).xor (hc.scale _)).congr (hother r hr hrc)

/-- The turn is undone by row operations: it adds nothing to the kernel. -/
theorem annihilates {v : Nat → Byte} (hck : c < k) (hkw : k ≤ w) (hv : Annihilates k W' v) :
    Annihilates k W v := by
  obtain ⟨-, hpk, hinv, -, hpivot, hother⟩ := h
  have hp : gfDot k (entry W p) v = 0 := by
    refine eq_zero_of_gfMul_eq_zero (u := y) (y := entry W p c) (by rw [gfMul_comm, hinv]) ?_
    rw [← gfDot_gfMul_left, ← hv c hck]
    exact gfDot_congr (fun j hj => (hpivot j (by omega)).symm) fun _ _ => rfl
  have hswapped (r : Nat) (hr : r < k) (hrc : r ≠ c) : gfDot k (entry W (Equiv.swap c p r)) v = 0 := by
    have hsum : gfDot k (entry W' r) v = gfDot k (entry W (Equiv.swap c p r)) v ^^^
        gfMul (entry W (Equiv.swap c p r) c) (gfDot k (entry W' c) v) := by
      rw [← gfDot_gfMul_left, ← gfDot_xor_left]
      exact gfDot_congr (fun j hj => hother r hr hrc j (by omega)) fun _ _ => rfl
    rw [hv r hr, hv c hck] at hsum
    simpa using hsum.symm
  intro r hr
  by_cases hrp : r = p
  · rwa [hrp]
  · have hr' := hswapped (Equiv.swap c p r) (swap_lt hck hpk hr) fun he =>
      hrp ((Equiv.swap c p).injective (he.trans (Equiv.swap_apply_right c p).symm))
    rwa [Equiv.swap_apply_self] at hr'

end IsTurn

/-! ### The elimination, up to a column (R106) -/

/-- What the turns of the columns below `c` have made of `A` beside `I_k`. -/
structure Reduced (k c : Nat) (A W : Mat) : Prop where
  shape : HasShape k (2 * k) W
  unit : UnitColumns k c W
  solves : ∀ r < k, RowSolves k A (entry W r)
  kernel : ∀ v, Annihilates k W v → Annihilates k A v

theorem entry_augment {k r j : Nat} (A : Mat) (hr : r < k) (hj : j < 2 * k) :
    entry (augment k A) r j = if j < k then entry A r j else if r = j - k then 1 else 0 :=
  entry_buildMat hr hj _

theorem reduced_augment (k : Nat) (A : Mat) : Reduced k 0 A (augment k A) := by
  have hleft {r j : Nat} (hr : r < k) (hj : j < k) : entry (augment k A) r j = entry A r j := by
    rw [entry_augment A hr (by omega), if_pos hj]
  refine ⟨hasShape_buildMat k (2 * k) _, fun _ _ j hj => absurd hj (Nat.not_lt_zero j),
    fun r hr j hj => ?_, fun v hv r hr => ?_⟩
  · have hright (t : Nat) (ht : t < k) :
        entry (augment k A) r (k + t) = if r = t then 1 else 0 := by
      rw [entry_augment A hr (by omega), if_neg (by omega), Nat.add_sub_cancel_left]
    rw [hleft hr hj, gfDot_congr hright fun _ _ => rfl, gfDot_unit hr]
  · rw [← hv r hr]
    exact gfDot_congr (fun j hj => (hleft hr hj).symm) fun _ _ => rfl

theorem Reduced.eliminate {k c : Nat} {A W W' : Mat} (h : Reduced k c A W) (hck : c < k)
    (he : eliminate k c W = some W') : Reduced k (c + 1) A W' := by
  obtain ⟨p, y, hturn⟩ := exists_isTurn_of_eliminate h.shape hck (by omega) he
  exact ⟨hturn.shape, hturn.unitColumns (by omega) h.unit, hturn.rowSolves hck rfl h.solves,
    fun v hv => h.kernel v (hturn.annihilates hck (by omega) hv)⟩

theorem reduced_of_eliminateUpTo {k c : Nat} {A W : Mat} (hck : c ≤ k)
    (h : eliminateUpTo k c (augment k A) = some W) : Reduced k c A W := by
  induction c generalizing W with
  | zero =>
    obtain rfl := Option.some.inj h
    exact reduced_augment k A
  | succ c ih =>
    unfold eliminateUpTo at h
    split at h
    · exact nomatch h
    next W₀ hbefore => exact (ih (by omega) hbefore).eliminate hck h

/-! ### What `Invert` returns, and when it returns -/

/-- With all columns those of the identity, the equation of the rows says that the right half is a left
inverse. -/
theorem matMul_of_invert {k : Nat} {A B : Mat} (h : invert k A = some B) :
    matMul k k k B A = identityMat k := by
  unfold invert at h
  split at h
  · exact nomatch h
  next W hW =>
  obtain rfl := Option.some.inj h
  obtain ⟨-, hunit, hsolves, -⟩ := reduced_of_eliminateUpTo le_rfl hW
  refine buildMat_congr fun i hi j hj => ?_
  rw [← hunit i hi j hj, hsolves i hi j hj]
  exact gfDot_congr (fun t ht => entry_buildMat hi ht _) fun _ _ => rfl

/-- A column vector that the reduced left square takes to zero when column `c` has no pivot. -/
def kernelVector (c : Nat) (W : Mat) (j : Nat) : Byte :=
  if j < c then entry W j c else if j = c then 1 else 0

/-- Without a pivot, column `c` is the sum of the unit columns before it that its own entries name: a row
above the diagonal meets its unit column and column `c`, a row from the diagonal on meets neither. -/
theorem annihilates_kernelVector {k c : Nat} {W : Mat} (hck : c < k) (hunit : UnitColumns k c W)
    (hnone : findPivot k c W = none) : Annihilates k W (kernelVector c W) := by
  intro r hr
  obtain hrc | hcr := lt_or_ge r c
  · have hterm (j : Nat) (hj : j < k) : gfMul (entry W r j) (kernelVector c W j) =
        (if r = j then entry W r c else 0) ^^^ (if c = j then entry W r c else 0) := by
      unfold kernelVector
      obtain hjc | rfl | hcj := lt_trichotomy j c
      · rw [hunit r hr j hjc]
        by_cases hrj : r = j
        · subst hrj; simp [hjc, hjc.ne']
        · simp [hrj, hjc.ne']
      · simp [hrc.ne]
      · simp [hcj.not_gt, hcj.ne, hcj.ne', (hrc.trans hcj).ne]
    rw [gfDot, xorSum_congr hterm, xorSum_xor, xorSum_single hr, xorSum_single hck]
    exact BitVec.xor_self
  · have hterm (j : Nat) (hj : j < k) : gfMul (entry W r j) (kernelVector c W j) = 0#8 := by
      unfold kernelVector
      obtain hjc | rfl | hcj := lt_trichotomy j c
      · rw [hunit r hr j hjc, if_neg (by omega)]
        simp
      · rw [findPivot_none hnone r hcr hr]
        simp
      · simp [hcj.not_gt, hcj.ne']
    rw [gfDot, xorSum_congr hterm]
    exact xorSum_zero_terms k

/-- `Invert` fails only on a matrix with a kernel. -/
theorem exists_invert_of_kernel {k : Nat} {A : Mat}
    (hker : ∀ v, Annihilates k A v → ∀ j < k, v j = 0) : ∃ B, invert k A = some B := by
  have hturns (c : Nat) (hck : c ≤ k) : ∃ W, eliminateUpTo k c (augment k A) = some W := by
    induction c with
    | zero => exact ⟨_, rfl⟩
    | succ c ih =>
      obtain ⟨W, hW⟩ := ih (by omega)
      obtain ⟨-, hunit, -, hkernel⟩ := reduced_of_eliminateUpTo (by omega) hW
      cases hpivot : findPivot k c W with
      | none =>
        have hzero := hker _ (hkernel _ (annihilates_kernelVector hck hunit hpivot)) c hck
        simp [kernelVector] at hzero
      | some p => simp [eliminateUpTo, hW, eliminate, hpivot]
  obtain ⟨W, hW⟩ := hturns k le_rfl
  simp [invert, hW]

end Sys2Proof.Machine

namespace Sys2Proof.Machine

/-! ### Matrices of the model as matrices over the field -/

namespace FieldReading
variable {F : Type} [Field F] (φ : FieldReading F)

/-- The entries of the top left `r` x `c` part of a matrix, as a matrix over the field. -/
def mat (r c : Nat) (A : Mat) : Matrix (Fin r) (Fin c) F := Matrix.of fun i j => φ.toFun (entry A i j)

theorem mat_apply (r c : Nat) (A : Mat) (i : Fin r) (j : Fin c) :
    φ.mat r c A i j = φ.toFun (entry A i j) := rfl

theorem mat_buildMat {r c : Nat} (f : Nat → Nat → Byte) (i : Fin r) (j : Fin c) :
    φ.mat r c (buildMat r c f) i j = φ.toFun (f i j) := by
  rw [mat_apply, entry_buildMat i.isLt j.isLt]

theorem buildMat_eq_iff {r c : Nat} {f g : Nat → Nat → Byte} :
    buildMat r c f = buildMat r c g ↔ φ.mat r c (buildMat r c f) = φ.mat r c (buildMat r c g) := by
  refine ⟨fun h => by rw [h], fun h => buildMat_congr fun i hi j hj => φ.injective ?_⟩
  rw [← φ.mat_buildMat f ⟨i, hi⟩ ⟨j, hj⟩, h, φ.mat_buildMat]

theorem mat_matMul (r n c : Nat) (A B : Mat) :
    φ.mat r c (matMul r n c A B) = φ.mat r n A * φ.mat n c B := by
  ext i j
  rw [matMul, φ.mat_buildMat, φ.map_xorSum, Matrix.mul_apply]
  exact Finset.sum_congr rfl fun t _ => φ.map_gfMul _ _

theorem mat_identityMat (k : Nat) : φ.mat k k (identityMat k) = 1 := by
  ext i j
  rw [identityMat, φ.mat_buildMat, Matrix.one_apply, apply_ite φ.toFun, φ.map_one, φ.map_zero]
  exact if_congr Fin.ext_iff.symm rfl rfl

theorem mat_vand (n : Nat) :
    φ.mat n n (vand n n) = Matrix.vandermonde fun i : Fin n => φ.toFun (BitVec.ofNat 8 i) := by
  ext i j
  rw [vand, φ.mat_buildMat, Matrix.vandermonde_apply, φ.map_gfPow]

theorem gfDot_eq_mulVec {k : Nat} (A : Mat) (v : Nat → Byte) (r : Fin k) :
    φ.toFun (gfDot k (entry A r) v) = (φ.mat k k A).mulVec (fun j => φ.toFun (v j)) r := by
  rw [gfDot, φ.map_xorSum]
  exact Finset.sum_congr rfl fun j _ => φ.map_gfMul _ _

/-- `Invert` returns on every matrix whose determinant is not 0. -/
theorem exists_invert_of_det_ne_zero {k : Nat} {A : Mat} (hdet : (φ.mat k k A).det ≠ 0) :
    ∃ B, invert k A = some B := by
  refine exists_invert_of_kernel fun v hv j hj => ?_
  have hzero : (φ.mat k k A).mulVec (fun j => φ.toFun (v j)) = 0 := by
    ext r
    rw [← φ.gfDot_eq_mulVec, hv r r.isLt, φ.map_zero]
    rfl
  have hvj := congrFun (Matrix.eq_zero_of_mulVec_eq_zero hdet hzero) ⟨j, hj⟩
  exact φ.injective (hvj.trans φ.map_zero.symm)

end FieldReading

theorem matMul_eq_identityMat_comm {k : Nat} {A B : Mat} :
    matMul k k k B A = identityMat k ↔ matMul k k k A B = identityMat k := by
  obtain ⟨F, _, ⟨φ⟩⟩ := exists_fieldReading
  have hmat (A B : Mat) : matMul k k k A B = identityMat k ↔ φ.mat k k A * φ.mat k k B = 1 := by
    rw [← φ.mat_matMul, ← φ.mat_identityMat]
    exact φ.buildMat_eq_iff
  rw [hmat, hmat, mul_eq_one_comm]

theorem matMul_assoc (r m n c : Nat) (A B C : Mat) :
    matMul r n c (matMul r m n A B) C = matMul r m c A (matMul m n c B C) := by
  obtain ⟨F, _, ⟨φ⟩⟩ := exists_fieldReading
  refine φ.buildMat_eq_iff.mpr ?_
  change φ.mat r c (matMul r n c _ C) = φ.mat r c (matMul r m c A _)
  rw [φ.mat_matMul, φ.mat_matMul, φ.mat_matMul, φ.mat_matMul, Matrix.mul_assoc]

/-- Settles O53: the elimination makes a left inverse, which over a field is a right inverse too. -/
theorem invertGivesTwoSidedInverse : Obligations.InvertGivesTwoSidedInverse := by
  intro k A B h
  have hleft := matMul_of_invert h
  exact ⟨hleft, matMul_eq_identityMat_comm.mp hleft⟩

/-! ### The generator matrix (R102 to R104) -/

theorem take_buildMat (r m c : Nat) (f : Nat → Nat → Byte) :
    (buildMat (r + m) c f).take r = buildMat r c f := by
  simp [buildMat, ← List.map_take, List.take_range]

theorem entry_append_left {A : Mat} {i : Nat} (B : Mat) (hi : i < A.length) (j : Nat) :
    entry (A ++ B) i j = entry A i j := by
  rw [entry, entry, matRow, matRow, List.getElem?_append_left hi]

/-- Row `r + i` of `A` over `B` is row `i` of `B`, where `B` holds the entry. -/
theorem entry_append_right {A B : Mat} {r i j : Nat} (hr : A.length = r)
    (hj : j < (matRow B i).length) :
    entry (A ++ B) (r + i) j = entry B i j := by
  have hrow : matRow (A ++ B) (r + i) = matRow B i := by
    rw [matRow, matRow, List.getElem?_append_right (by omega), hr, Nat.add_sub_cancel_left]
  rw [entry_eq_getElem hj, entry_eq_getElem (hrow ▸ hj)]
  simp only [hrow]

theorem eq_of_ofNat_eq {i j : Nat} (hi : i < 256) (hj : j < 256)
    (h : BitVec.ofNat 8 i = BitVec.ofNat 8 j) : i = j := by
  rw [← slotOf_toNat hi, ← slotOf_toNat hj]
  exact congrArg BitVec.toNat h

theorem entry_vand {rows cols r c : Nat} (hr : r < rows) (hc : c < cols) :
    entry (vand rows cols) r c = gfPow (BitVec.ofNat 8 r) c :=
  entry_buildMat hr hc _

/-- The top square of the Vandermonde matrix is inverted: its rows belong to different bytes (R102). -/
theorem exists_invert_vand {n : Nat} (hn : n ≤ 256) : ∃ T, invert n (vand n n) = some T := by
  obtain ⟨F, _, ⟨φ⟩⟩ := exists_fieldReading
  refine φ.exists_invert_of_det_ne_zero ?_
  rw [φ.mat_vand, Matrix.det_vandermonde_ne_zero_iff]
  intro i j hij
  exact Fin.ext (eq_of_ofNat_eq (by omega) (by omega) (φ.injective hij))

/-- Settles O56: the reciprocals are of sums that are not 0, since the row and the column belong to
different bytes. -/
theorem cauchyGeneratorEntries : Obligations.CauchyGeneratorEntries := by
  rintro n m ⟨-, hle⟩
  have hlen : (identityMat n).length = n := buildMat_length n n _
  refine ⟨by rw [generator, List.length_append, hlen, cauchyBlock, buildMat_length], fun i hi j hj => ?_,
    fun i hi j hj => ?_⟩
  · rw [generator, entry_append_left _ (by rwa [hlen]), identityMat, entry_buildMat hi hj]
  · have hcols : j < (matRow (cauchyBlock n m) i).length := by
      rwa [cauchyBlock, (hasShape_buildMat m n _).cols i hi]
    have hsum : BitVec.ofNat 8 (n + i) ^^^ BitVec.ofNat 8 j ≠ 0 := by
      intro hzero
      have hlt : n + i < 256 := lt_of_lt_of_le (by omega) hle
      have := eq_of_ofNat_eq hlt (by omega) (BitVec.xor_eq_zero_iff.mp hzero)
      omega
    rw [generator, entry_append_right hlen hcols, cauchyBlock, entry_buildMat hi hj, gfMul_comm]
    exact gfMul_inverseLut hsum

/-- The generator matrix is the Vandermonde matrix times the inverse of its top square (R104). -/
theorem generator_vandermonde {n m : Nat} (hn : n ≤ 256) : ∃ T,
    matMul n n n T (vand n n) = identityMat n ∧
    generator .vandermonde n m = matMul (n + m) n n (vand (n + m) n) T := by
  obtain ⟨T, hT⟩ := exists_invert_vand hn
  refine ⟨T, matMul_of_invert hT, ?_⟩
  have htop : (vand (n + m) n).take n = vand n n := take_buildMat n m n _
  simp only [generator, htop, hT]

theorem entry_matMul_identityMat {r n i j : Nat} (hi : i < r) (hj : j < n) (A : Mat) :
    entry (matMul r n n A (identityMat n)) i j = entry A i j := by
  have hunit (t : Nat) (ht : t < n) : entry (identityMat n) t j = if j = t then 1 else 0 := by
    rw [identityMat, entry_buildMat ht hj]
    exact if_congr eq_comm rfl rfl
  rw [entry_matMul hi hj, gfDot_comm, gfDot_congr hunit fun _ _ => rfl, gfDot_unit hj]

/-- Settles O57: the inverse of the top square cancels against the square. -/
theorem vandermondeGeneratorFactors : Obligations.VandermondeGeneratorFactors := by
  rintro n m ⟨-, hle⟩ r hr c hc
  obtain ⟨T, hinv, hgen⟩ := generator_vandermonde (m := m) (le_trans (Nat.le_add_right n m) hle)
  calc xorSum n (fun t => gfMul (entry (generator .vandermonde n m) r t) (gfPow (BitVec.ofNat 8 t) c))
      = entry (matMul (n + m) n n (generator .vandermonde n m) (vand n n)) r c := by
        rw [entry_matMul hr hc]
        exact gfDot_congr (fun _ _ => rfl) fun t ht => (entry_vand ht hc).symm
    _ = entry (matMul (n + m) n n (vand (n + m) n) (identityMat n)) r c := by
        rw [hgen, matMul_assoc, hinv]
    _ = entry (vand (n + m) n) r c := entry_matMul_identityMat hr hc _
    _ = gfPow (BitVec.ofNat 8 r) c := entry_vand hr hc

end Sys2Proof.Machine

namespace Sys2Proof.Machine

/-! ### The registers that `CSRRD` reads (R14) -/

theorem getLsbD_flagsWord (s : State) (b : Nat) :
    (flagsWord s).getLsbD b =
      if b = 0 then s.cfg.valid else if b = 1 then s.cfg.kind == .cauchy
      else if b = 2 then s.decv else false := by
  simp only [flagsWord, BitVec.getLsbD_append, getLsbD_ofBool]
  obtain rfl | rfl | rfl | hb : b = 0 ∨ b = 1 ∨ b = 2 ∨ 3 ≤ b := by omega
  · simp
  · simp
  · simp
  · have h0 : b ≠ 0 := by omega
    have h1 : b ≠ 1 := by omega
    have h2 : b ≠ 2 := by omega
    have hlow : ¬ b < 1 := by omega
    have hmid : ¬ b - 1 < 1 := by omega
    have hhigh : ¬ b - 1 - 1 < 1 := by omega
    simp only [h0, h1, h2, hlow, hmid, hhigh, if_false, BitVec.ofNat_eq_ofNat, BitVec.getLsbD_zero]

/-- A result of at most 16 bits keeps its value in `VAL` (R9). -/
theorem toNat_zext16 {w : Nat} (hw : w ≤ 16) (v : BitVec w) : (zext16 v).toNat = v.toNat :=
  BitVec.toNat_setWidth_of_le hw

theorem readCsr_eq_none {s : State} {sel : Byte} (h : 5 ≤ sel.toNat) : readCsr s sel = none := by
  unfold readCsr
  split
  case h_6 => rfl
  all_goals omega

/-- Settles O29: a register that exists is answered as it is, and from 5 on none exists. -/
theorem csrrdAnswersRegister : Obligations.CsrrdAnswersRegister := by
  intro sel s
  have hok {v : Half} (h : readCsr s sel = some v) : Answers (exec (.csrrd sel) s) s false v := by
    rw [exec, execCsrrd, h]
    exact answers_respond v s
  refine ⟨decode_encode (.csrrd sel), fun h => ?_, fun h => ?_, fun h => ?_, fun h => ?_, fun h => ?_,
    fun h => ?_⟩
  · refine ⟨flagsWord s, hok (by simp [readCsr, h]), getLsbD_flagsWord s 0, getLsbD_flagsWord s 1,
      getLsbD_flagsWord s 2, fun b hb => ?_⟩
    rw [getLsbD_flagsWord, if_neg (by omega), if_neg (by omega), if_neg (by omega)]
  · exact ⟨zext16 s.cfg.n, hok (by simp [readCsr, h]), toNat_zext16 (by omega) _⟩
  · exact ⟨zext16 s.cfg.m, hok (by simp [readCsr, h]), toNat_zext16 (by omega) _⟩
  · exact hok (by simp [readCsr, h])
  · exact ⟨zext16 s.errlog, hok (by simp [readCsr, h]), toNat_zext16 (by omega) _⟩
  · rw [exec, execCsrrd, readCsr_eq_none h]
    exact fails_raise .range s

/-! ### The decoding-matrix unit, case by case (R107) -/

section
variable {s : State}

theorem decodingMatrix_of_few (h : (presentIndices s).length < numData s) :
    decodingMatrix s = .error .insufficientShards := by
  rw [decodingMatrix_eq, if_pos h]

theorem decodingMatrix_of_singular (h : numData s ≤ (presentIndices s).length)
    (hinv : invert (numData s) (selectedRows (numData s) s.gen (selectedSlots s)) = none) :
    decodingMatrix s = .error .singularMatrix := by
  rw [decodingMatrix_eq, if_neg (Nat.not_lt.mpr h), hinv]

theorem decodingMatrix_of_invert {dec : Mat} (h : numData s ≤ (presentIndices s).length)
    (hinv : invert (numData s) (selectedRows (numData s) s.gen (selectedSlots s)) = some dec) :
    decodingMatrix s = .ok (selectedSlots s, dec) := by
  rw [decodingMatrix_eq, if_neg (Nat.not_lt.mpr h), hinv]

/-- The first check of `DECRD` and `SELRD` (R114, R115). -/
theorem noDecodingMatrix_iff :
    (!s.cfg.valid || !s.decv) = true ↔ s.cfg.valid = false ∨ s.decv = false := by
  simp

end

/-! ### `GENRD`, `MKDEC`, `DECRD`, `SELRD` (R112 to R115)

In each case the hypotheses decide the command's checks in their order (R164), and so its branch. -/

/-- Settles O30, check by check. -/
theorem genrdAnswersGeneratorEntry : Obligations.GenrdAnswersGeneratorEntry := by
  refine fun row col s => ⟨decode_encode (.genrd row col), fun hvalid => ?_, fun hvalid hrange => ?_,
    fun hvalid hrow hcol => ?_⟩ <;>
    simp only [exec, execGenrd, hvalid, ge_iff_le]
  · exact fails_raise .sequence s
  · rw [if_pos hrange]
    exact fails_raise .range s
  · rw [if_neg (show ¬(_ ∨ _) by omega)]
    exact answers_respond _ s

/-- Settles O31: the decoding-matrix unit in its three cases. -/
theorem mkdecDerivesDecodingMatrix : Obligations.MkdecDerivesDecodingMatrix := by
  refine ⟨decode_encode .mkdec, fun s => ⟨fun hvalid => ?_, fun hvalid hfew => ?_,
    fun hvalid henough hsing => ?_, fun dec hvalid henough hinv => ?_⟩⟩ <;>
    simp only [exec, execMkdec, hvalid]
  · exact fails_raise .sequence s
  · rw [decodingMatrix_of_few hfew]
    exact fails_raise .insufficientShards s
  · rw [decodingMatrix_of_singular henough hsing]
    exact fails_raise .singularMatrix s
  · rw [decodingMatrix_of_invert henough hinv]
    exact answers_respond 0 _

/-- Settles O32, check by check. -/
theorem decrdAnswersDecodingEntry : Obligations.DecrdAnswersDecodingEntry := by
  refine fun row col s => ⟨decode_encode (.decrd row col), fun hmissing => ?_,
    fun hvalid hdecv hrange => ?_, fun hvalid hdecv hrow hcol => ?_⟩
  · rw [exec, execDecrd, if_pos (noDecodingMatrix_iff.mpr hmissing)]
    exact fails_raise .sequence s
  · simp only [exec, execDecrd, hvalid, hdecv, ge_iff_le]
    rw [if_pos hrange]
    exact fails_raise .range s
  · simp only [exec, execDecrd, hvalid, hdecv, ge_iff_le]
    rw [if_neg (show ¬(_ ∨ _) by omega)]
    exact answers_respond _ s

/-- Settles O33, check by check. -/
theorem selrdAnswersSelectedIndex : Obligations.SelrdAnswersSelectedIndex := by
  refine fun k s => ⟨decode_encode (.selrd k), fun hmissing => ?_, fun hvalid hdecv hrange => ?_,
    fun hvalid hdecv hk => ?_⟩
  · rw [exec, execSelrd, if_pos (noDecodingMatrix_iff.mpr hmissing)]
    exact fails_raise .sequence s
  · simp only [exec, execSelrd, hvalid, hdecv, ge_iff_le]
    rw [if_pos hrange]
    exact fails_raise .range s
  · simp only [exec, execSelrd, hvalid, hdecv, ge_iff_le]
    rw [if_neg (Nat.not_le.mpr hk)]
    exact answers_respond _ s

end Sys2Proof.Machine

namespace Sys2Proof

/-- A word of format S whose `val` is reserved ends in 32 zeros (R61). -/
theorem packS_zero_val (op : Byte) (slot : Slot) (off : Half) :
    packS op slot off 0 = op ++ slot ++ off ++ 0#32 :=
  BitVec.append_assoc

end Sys2Proof

namespace Sys2Proof.Machine

/-! ### The descriptors after `setDesc` (R132) -/

@[simp] theorem descOf_setDesc_same (s : State) (slot : Slot) (pres : Bool) (len : Half) :
    descOf (setDesc s slot pres len).desc slot = ⟨pres, len⟩ :=
  descOf_putDesc_same s.desc slot ⟨pres, len⟩

theorem descOf_setDesc_other {slot slot' : Slot} (h : slot' ≠ slot) (s : State) (pres : Bool)
    (len : Half) : descOf (setDesc s slot pres len).desc slot' = descOf s.desc slot' :=
  descOf_putDesc_other h s.desc ⟨pres, len⟩

/-! ### `SHWR`, `SHRD`, `SHSET`, `SHGET` (R130 to R133) -/

/-- What `SHRD` does: it answers the byte of the store and nothing else. -/
theorem answers_exec_shrd (slot : Slot) (off : Half) (s : State) :
    Answers (exec (.shrd slot off) s) s false ((readShard s slot off).setWidth 16) :=
  answers_respond (zext16 (readShard s slot off)) s

/-- A byte that has been written reads as what is listed at its address (R41). -/
theorem readShard_of_cellsGet {s : State} {slot : Slot} {off : Half} {v : Byte}
    (h : cellsGet (slot.toNat * 65536 + off.toNat) s.mem = some v) : readShard s slot off = v := by
  rw [readShard, memRead, addrOf_toNat, h, Option.getD_some]

/-- Settles O34: the state answered is the one after the write, and addresses do not alias. -/
theorem shwrWritesOneByte : Obligations.ShwrWritesOneByte := by
  refine fun slot off val s => ⟨decode_encode (.shwr slot off val), memWrite s (addrOf slot off) val,
    rfl, answers_respond 0 _, readShard_memWrite_same s slot off val, fun slot' off' hother => ?_⟩
  exact readShard_memWrite_other (not_and_or.mpr hother) s val

/-- Settles O35: a byte never written is answered too, as the free value it reads as. -/
theorem shrdAnswersByte : Obligations.ShrdAnswersByte := by
  refine fun slot off s => ⟨?_, ⟨readShard s slot off, answers_exec_shrd slot off s⟩, fun v hv => ?_⟩
  · rw [← packS_zero_val]
    exact decode_encode (.shrd slot off)
  · rw [← readShard_of_cellsGet hv]
    exact answers_exec_shrd slot off s

/-- Settles O36: the response of `SHWR` leaves the store as the write made it. -/
theorem shwrThenShrdAnswersTheByte : Obligations.ShwrThenShrdAnswersTheByte := by
  intro slot off val s t hwrite
  obtain rfl : answer (memWrite s (addrOf slot off) val) (responseWord 0 false 0) = t :=
    Host.Outcome.next.inj hwrite
  have hread := answers_exec_shrd slot off
    (answer (memWrite s (addrOf slot off) val) (responseWord 0 false 0))
  rwa [readShard_answer, readShard_memWrite_same] at hread

/-- Settles O37: the state answered is the one after `setDesc`. -/
theorem shsetWritesDescriptor : Obligations.ShsetWritesDescriptor := by
  refine fun slot len pres s => ⟨decode_encode (.shset slot len pres), setDesc s slot pres len, rfl,
    answers_respond 0 _, congrArg Desc.pres (descOf_setDesc_same s slot pres len),
    congrArg Desc.len (descOf_setDesc_same s slot pres len), fun slot' hother => ?_⟩
  have hdesc := descOf_setDesc_other hother s pres len
  exact ⟨congrArg Desc.pres hdesc, congrArg Desc.len hdesc⟩

/-- Settles O38: `SHGET` only answers, with the two fields of the descriptor. -/
theorem shgetAnswersDescriptor : Obligations.ShgetAnswersDescriptor :=
  fun slot s => ⟨decode_encode (.shget slot), answers_respondWith _ _ s⟩

end Sys2Proof.Machine

namespace Sys2Proof.Machine

/-! ### The engine's writes and sums, slot by slot and offset by offset (R142) -/

/-- A byte inside the slots and lengths that `storeShards` stores to, named by its slot and offset. -/
theorem readShard_storeShards_mem {s : State} {slots : List Nat} (hslots : ∀ p ∈ slots, p < 256)
    (f : Nat → Nat → Byte) {slot : Slot} {off : Half} (hslot : slot.toNat ∈ slots)
    (hoff : off.toNat < shardLen s) :
    readShard (storeShards s slots f) slot off = f slot.toNat off.toNat := by
  simpa using readShard_storeShards_inside (f := f) hslots hslot hoff

/-- Descriptors are not in the store. -/
@[simp] theorem readShard_markPresent (s : State) (slots : List Nat) (slot : Slot) (off : Half) :
    readShard (markPresent s slots) slot off = readShard s slot off := rfl

/-- The multiply-accumulate core with a row of `GEN`, column by column (R142). -/
theorem encodedByte_eq (s : State) (p : Nat) (off : Half) :
    encodedByte s p off.toNat =
      xorSum (numData s) (fun j => gfMul (entry s.gen p j) (readShard s (slotOf j) off)) := by
  simp only [encodedByte, dot, offOf_self]

/-- The multiply-accumulate core with a row of `DEC`, column by column (R142). -/
theorem decodedByte_eq (s : State) (sel : List Slot) (dec : Mat) (d : Nat) (off : Half) :
    decodedByte s sel dec d off.toNat =
      xorSum (numData s) (fun j => gfMul (entry dec d j) (readShard s (selEntry sel j) off)) := by
  simp only [decodedByte, dot, offOf_self]

/-- A descriptor is the presence flag with the length. -/
theorem flags_of_descOf {s : State} {slot : Slot} {d : Desc} (h : descOf s.desc slot = d) :
    isPresent s slot = d.pres ∧ declaredLen s slot = d.len :=
  ⟨congrArg Desc.pres h, congrArg Desc.len h⟩

/-! ### `ENCODE` (R140, R141, R143) -/

theorem encodeLengthsDiffer_iff (s : State) :
    encodeLengthsDiffer s = true ↔ ∃ j < numData s, declaredLen s (slotOf j) ≠ s.cfg.l := by
  simp [encodeLengthsDiffer]

/-- Settles O39, check by check. -/
theorem encodeChecksInOrder : Obligations.EncodeChecksInOrder := by
  refine fun cnt s => ⟨decode_encode (.encode cnt), fun hvalid => ?_, fun hvalid hcnt => ?_,
    fun hvalid hcnt hlen => ?_, fun hready => ⟨encodeEffect s, ?_⟩⟩
  · simp only [exec, execEncode, hvalid]
    exact fails_raise .sequence s
  · simp only [exec, execEncode, hvalid]
    rw [if_pos hcnt]
    exact fails_raise .shape s
  · simp only [exec, execEncode, hvalid]
    rw [if_neg (not_not.mpr hcnt), if_pos ((encodeLengthsDiffer_iff s).mpr hlen)]
    exact fails_raise .shape s
  · rw [exec_encode_ready hready]
    exact answers_respond 0 _

section
variable {s : State} (htotal : numData s + numParity s ≤ 256)
include htotal

theorem paritySlots_lt : ∀ p ∈ paritySlots s, p < 256 := fun _ hp =>
  (mem_paritySlots.mp hp).2.trans_le htotal

/-- A parity byte in the window is the sum that its row of `GEN` gives (R141). -/
theorem readShard_encodeEffect_parity {slot : Slot} {off : Half} (hlow : numData s ≤ slot.toNat)
    (hhigh : slot.toNat < numData s + numParity s) (hoff : off.toNat < shardLen s) :
    readShard (encodeEffect s) slot off =
      xorSum (numData s) (fun j => gfMul (entry s.gen slot.toNat j) (readShard s (slotOf j) off)) := by
  rw [encodeEffect, readShard_markPresent,
    readShard_storeShards_mem (paritySlots_lt htotal) _ (mem_paritySlots.mpr ⟨hlow, hhigh⟩) hoff,
    encodedByte_eq]

/-- Every byte but the parity bytes in the window is as before (R141). -/
theorem readShard_encodeEffect_other {slot : Slot} {off : Half}
    (h : slot.toNat < numData s ∨ numData s + numParity s ≤ slot.toNat ∨ shardLen s ≤ off.toNat) :
    readShard (encodeEffect s) slot off = readShard s slot off := by
  rw [encodeEffect, readShard_markPresent, readShard_storeShards_outside (paritySlots_lt htotal)]
  rw [mem_paritySlots]
  omega

theorem descOf_encodeEffect (slot : Slot) :
    descOf (encodeEffect s).desc slot =
      if numData s ≤ slot.toNat ∧ slot.toNat < numData s + numParity s then ⟨true, s.cfg.l⟩
      else descOf s.desc slot := by
  rw [encodeEffect, descOf_markPresent (paritySlots_lt htotal)]
  simp only [mem_paritySlots, storeShards_cfg, storeShards_desc]

end

/-- Settles O40: the state answered is that of `encodeEffect`. -/
theorem encodeWritesParity : Obligations.EncodeWritesParity := by
  intro cnt s hready htotal
  refine ⟨encodeEffect s, rfl, ?_, fun slot off => readShard_encodeEffect_parity htotal,
    fun slot off => readShard_encodeEffect_other htotal, fun slot => ?_⟩
  · rw [exec_encode_ready hready]
    exact answers_respond 0 _
  · have hdesc := descOf_encodeEffect htotal slot
    split_ifs with hparity
    · exact flags_of_descOf (hdesc.trans (if_pos hparity))
    · exact flags_of_descOf (hdesc.trans (if_neg hparity))

/-- The state after an `ENCODE` whose checks pass. -/
theorem eq_of_exec_encode_ready {cnt : Half} {s t : State} (hready : EncodeReady cnt s)
    (h : exec (.encode cnt) s = .next t) : t = answer (encodeEffect s) (responseWord 0 false 0) :=
  (Host.Outcome.next.inj ((exec_encode_ready hready).symm.trans h)).symm

/-- Settles O42: in both runs the parity byte is the same sum, over bytes that agree. -/
theorem encodeColumnsAreIndependent : Obligations.EncodeColumnsAreIndependent := by
  intro cnt s u t v off hs hu htotal hcfg hgen hbytes hst huv slot hlow hhigh hoff
  have hn : numData u = numData s := by rw [numData, hcfg, numData]
  have hm : numParity u = numParity s := by rw [numParity, hcfg, numParity]
  have hl : shardLen u = shardLen s := by rw [shardLen, hcfg, shardLen]
  rw [eq_of_exec_encode_ready hs hst, eq_of_exec_encode_ready hu huv, readShard_answer,
    readShard_answer, readShard_encodeEffect_parity htotal hlow hhigh hoff,
    readShard_encodeEffect_parity (by omega) (by omega) (by omega) (by omega), hn, hgen]
  exact xorSum_congr fun j hj => by rw [hbytes j hj]

end Sys2Proof.Machine

namespace Sys2Proof.Machine

/-! ### `RECON`: its checks and its selection (R144, R107) -/

theorem reconLengthsDiffer_iff (s : State) :
    reconLengthsDiffer s = true ↔ ∃ i < numData s + numParity s,
      isPresent s (slotOf i) = true ∧ declaredLen s (slotOf i) ≠ s.cfg.l := by
  simp [reconLengthsDiffer]

theorem exec_recon_noMatrix {mode : Mode} {cnt : Half} {s : State} {e : ErrorKind}
    (h : ReconShapeOk cnt s) (hd : decodingMatrix s = .error e) :
    exec (.recon mode cnt) s = raise e s := by
  obtain ⟨hvalid, hcnt, hlen⟩ := (reconShapeOk_iff cnt s).mp h
  simp only [exec, execRecon, hvalid, hlen, hd]
  rw [if_neg (not_not.mpr hcnt)]
  rfl

/-- Settles O43, check by check. -/
theorem reconChecksInOrder : Obligations.ReconChecksInOrder := by
  refine fun mode cnt s => ⟨decode_encode (.recon mode cnt), fun hvalid => ?_, fun hvalid hcnt => ?_,
    fun hvalid hcnt hlen => ?_, fun hshape hfew => ?_, fun hshape henough hsing => ?_⟩
  · simp only [exec, execRecon, hvalid]
    exact fails_raise .sequence s
  · simp only [exec, execRecon, hvalid]
    rw [if_pos hcnt]
    exact fails_raise .shape s
  · simp only [exec, execRecon, hvalid]
    rw [if_neg (not_not.mpr hcnt), if_pos ((reconLengthsDiffer_iff s).mpr hlen)]
    exact fails_raise .shape s
  · rw [exec_recon_noMatrix hshape (decodingMatrix_of_few hfew)]
    exact fails_raise .insufficientShards s
  · rw [exec_recon_noMatrix hshape (decodingMatrix_of_singular henough hsing)]
    exact fails_raise .singularMatrix s

/-- What the decoding-matrix unit has found when it answers a matrix (R107). -/
theorem of_decodingMatrix_eq_ok {s : State} {sel : List Slot} {dec : Mat}
    (h : decodingMatrix s = .ok (sel, dec)) :
    numData s ≤ (presentIndices s).length ∧ sel = selectedSlots s := by
  rw [decodingMatrix_eq] at h
  split_ifs at h with hfew
  split at h
  · contradiction
  · exact ⟨Nat.not_lt.mp hfew, (Prod.mk.inj (Except.ok.inj h)).1.symm⟩

/-- Every selected slot is a present slot below N + M (R107). -/
theorem selEntry_selectedSlots {s : State} (h : numData s ≤ (presentIndices s).length) {j : Nat}
    (hj : j < numData s) : ∃ i < numData s + numParity s,
      selEntry (selectedSlots s) j = slotOf i ∧ isPresent s (slotOf i) = true := by
  have hlen : j < (presentIndices s).length := hj.trans_le h
  obtain ⟨hi, hpres⟩ := List.mem_filter.mp (List.getElem_mem hlen)
  refine ⟨(presentIndices s)[j], List.mem_range.mp hi, ?_, hpres⟩
  simp [selEntry, selectedSlots, hj, hlen]

/-! ### The effect of `RECON` (R145, R146) -/

@[simp] theorem storeShards_nil (s : State) (f : Nat → Nat → Byte) : storeShards s [] f = s := rfl
@[simp] theorem markPresent_nil (s : State) : markPresent s [] = s := rfl

section
variable {mode : Mode} {sel : List Slot} {dec : Mat} {s : State}

@[simp] theorem reconData_cfg : (reconData sel dec s).cfg = s.cfg := rfl
@[simp] theorem reconData_desc : (reconData sel dec s).desc = s.desc := rfl
@[simp] theorem numData_reconData : numData (reconData sel dec s) = numData s := rfl
@[simp] theorem reconData_gen : (reconData sel dec s).gen = s.gen := rfl
@[simp] theorem reconEffect_sel : (reconEffect mode sel dec s).sel = sel := by cases mode <;> rfl
@[simp] theorem reconEffect_dec : (reconEffect mode sel dec s).dec = dec := by cases mode <;> rfl

/-- The requested slots are those of the lists that `RECON` stores to (R144). -/
theorem requested_iff {slot : Slot} : Requested mode s slot ↔
    slot.toNat ∈ erasedData s ∨ (mode = .all ∧ slot.toNat ∈ erasedParity s) := by
  simp only [Requested, mem_erasedData, mem_erasedParity, slotOf_self]
  constructor
  · rintro ⟨hpres, hdata | ⟨hall, hhigh⟩⟩
    · exact .inl ⟨hdata, hpres⟩
    · rcases Nat.lt_or_ge slot.toNat (numData s) with hdata | hlow
      · exact .inl ⟨hdata, hpres⟩
      · exact .inr ⟨hall, ⟨hlow, hhigh⟩, hpres⟩
  · rintro (⟨hdata, hpres⟩ | ⟨hall, ⟨-, hhigh⟩, hpres⟩)
    · exact ⟨hpres, .inl hdata⟩
    · exact ⟨hpres, .inr ⟨hall, hhigh⟩⟩

/-- With no slot erased only `SEL`, `DEC` and `DECV` are written (R147). -/
theorem reconEffect_of_nothingErased (hdata : erasedData s = []) (hparity : erasedParity s = []) :
    reconEffect mode sel dec s = { s with sel := sel, dec := dec, decv := true } := by
  have hphase : reconData sel dec s = { s with sel := sel, dec := dec, decv := true } := by
    rw [reconData, hdata, storeShards_nil]
  cases mode with
  | all =>
    simp only [reconEffect, hdata, hparity, hphase, storeShards_nil, markPresent_nil]
  | data => simp only [reconEffect, hdata, hphase, markPresent_nil]

variable (htotal : numData s + numParity s ≤ 256)
include htotal

theorem erasedData_lt : ∀ d ∈ erasedData s, d < 256 := fun d hd => by
  have := (mem_erasedData.mp hd).1
  omega

theorem erasedParity_lt : ∀ p ∈ erasedParity s, p < 256 := fun _ hp =>
  (mem_erasedParity.mp hp).1.2.trans_le htotal

/-- The data phase refills the erased data slots from the selected slots (R145). -/
theorem readShard_reconData_erased {slot : Slot} {off : Half} (hslot : slot.toNat ∈ erasedData s)
    (hoff : off.toNat < shardLen s) :
    readShard (reconData sel dec s) slot off =
      xorSum (numData s)
        (fun j => gfMul (entry dec slot.toNat j) (readShard s (selEntry sel j) off)) :=
  (readShard_storeShards_mem (erasedData_lt htotal) _ hslot hoff).trans (decodedByte_eq s sel dec _ off)

theorem readShard_reconData_other {slot : Slot} {off : Half}
    (h : ¬(slot.toNat ∈ erasedData s ∧ off.toNat < shardLen s)) :
    readShard (reconData sel dec s) slot off = readShard s slot off :=
  readShard_storeShards_outside (erasedData_lt htotal) h

/-- After the data phase only the requested parity slots are written (R146). -/
theorem readShard_reconEffect_notParity {slot : Slot} {off : Half}
    (h : ¬(mode = .all ∧ slot.toNat ∈ erasedParity s ∧ off.toNat < shardLen s)) :
    readShard (reconEffect mode sel dec s) slot off = readShard (reconData sel dec s) slot off := by
  cases mode with
  | all => exact readShard_storeShards_outside (erasedParity_lt htotal) fun hin => h ⟨rfl, hin⟩
  | data => rfl

/-- A data slot is as the data phase leaves it. -/
theorem readShard_reconEffect_data {slot : Slot} (hslot : slot.toNat < numData s) (off : Half) :
    readShard (reconEffect mode sel dec s) slot off = readShard (reconData sel dec s) slot off :=
  readShard_reconEffect_notParity htotal fun ⟨_, hin, _⟩ =>
    (mem_erasedParity.mp hin).1.1.not_gt hslot

/-- With mode `ALL` an erased parity slot is encoded again from the data slots as they are afterwards
(R146). -/
theorem readShard_reconEffect_parity {slot : Slot} {off : Half} (hslot : slot.toNat ∈ erasedParity s)
    (hoff : off.toNat < shardLen s) :
    readShard (reconEffect .all sel dec s) slot off =
      xorSum (numData s) (fun j => gfMul (entry s.gen slot.toNat j)
        (readShard (reconEffect .all sel dec s) (slotOf j) off)) := by
  have henc : readShard (reconEffect .all sel dec s) slot off =
      encodedByte (reconData sel dec s) slot.toNat off.toNat :=
    readShard_storeShards_mem (erasedParity_lt htotal) _ hslot hoff
  rw [henc, encodedByte_eq, numData_reconData, reconData_gen]
  refine xorSum_congr fun j hj => ?_
  rw [readShard_reconEffect_data htotal (by rwa [slotOf_toNat (by omega)])]

theorem readShard_reconEffect_other {slot : Slot} {off : Half}
    (h : ¬(Requested mode s slot ∧ off.toNat < shardLen s)) :
    readShard (reconEffect mode sel dec s) slot off = readShard s slot off := by
  rw [requested_iff] at h
  rw [readShard_reconEffect_notParity htotal (by tauto), readShard_reconData_other htotal (by tauto)]

/-- The requested slots are marked present with length L, and no other descriptor is written (R146). -/
theorem descOf_reconEffect (slot : Slot) :
    descOf (reconEffect mode sel dec s).desc slot =
      if slot.toNat ∈ erasedData s ∨ (mode = .all ∧ slot.toNat ∈ erasedParity s) then ⟨true, s.cfg.l⟩
      else descOf s.desc slot := by
  cases mode with
  | all =>
    simp only [reconEffect, descOf_markPresent (erasedData_lt htotal),
      descOf_markPresent (erasedParity_lt htotal), markPresent_cfg, storeShards_cfg, storeShards_desc,
      reconData_cfg, reconData_desc, true_and, ite_or]
  | data =>
    simp only [reconEffect, descOf_markPresent (erasedData_lt htotal), reconData_cfg, reconData_desc,
      reduceCtorEq, false_and, or_false]

end

/-- Settles O44: the state answered is that of `reconEffect`, read slot by slot. -/
theorem reconRefillsRequestedSlots : Obligations.ReconRefillsRequestedSlots := by
  intro mode cnt s dec hshape htotal henough hinv
  refine ⟨reconEffect mode (selectedSlots s) dec s, ?_, ?_, fun slot off hslot hpres hoff => ?_,
    fun slot off hall hlow hhigh hpres hoff => ?_, fun slot off => readShard_reconEffect_other htotal,
    fun slot => ?_⟩
  · cases mode <;> rfl
  · rw [exec_recon_ready hshape (decodingMatrix_of_invert henough hinv)]
    exact answers_respond 0 _
  · have herased : slot.toNat ∈ erasedData s := mem_erasedData.mpr ⟨hslot, by rwa [slotOf_self]⟩
    rw [readShard_reconEffect_data htotal hslot, readShard_reconData_erased htotal herased hoff]
  · subst hall
    exact readShard_reconEffect_parity htotal
      (mem_erasedParity.mpr ⟨⟨hlow, hhigh⟩, by rwa [slotOf_self]⟩) hoff
  · have hdesc := descOf_reconEffect (mode := mode) (sel := selectedSlots s) (dec := dec) htotal slot
    rw [requested_iff]
    exact ⟨fun hreq => flags_of_descOf (hdesc.trans (if_pos hreq)),
      fun hnot => flags_of_descOf (hdesc.trans (if_neg hnot))⟩

section
variable {s : State} (hall : ∀ i < numData s + numParity s, isPresent s (slotOf i) = true)
include hall

theorem presentIndices_of_allPresent : presentIndices s = List.range (numData s + numParity s) :=
  List.filter_eq_self.mpr fun i hi => hall i (List.mem_range.mp hi)

/-- With nothing erased the first N slots are selected (R107). -/
theorem selectedSlots_of_allPresent : selectedSlots s = (List.range (numData s)).map slotOf := by
  rw [selectedSlots, presentIndices_of_allPresent hall, List.take_range,
    Nat.min_eq_left (Nat.le_add_right _ _)]

theorem erasedData_of_allPresent : erasedData s = [] := by
  refine List.eq_nil_iff_forall_not_mem.mpr fun d hd => ?_
  obtain ⟨hlt, hpres⟩ := mem_erasedData.mp hd
  rw [hall d (by omega)] at hpres
  contradiction

theorem erasedParity_of_allPresent : erasedParity s = [] := by
  refine List.eq_nil_iff_forall_not_mem.mpr fun p hp => ?_
  obtain ⟨⟨-, hlt⟩, hpres⟩ := mem_erasedParity.mp hp
  rw [hall p hlt] at hpres
  contradiction

end

/-- Settles O45: both lists of erased slots are empty, and the selection is the first N slots. -/
theorem reconWithNothingErasedMovesNoByte : Obligations.ReconWithNothingErasedMovesNoByte := by
  intro mode cnt s dec hshape hall hinv
  have henough : numData s ≤ (presentIndices s).length := by
    rw [presentIndices_of_allPresent hall, List.length_range]
    exact Nat.le_add_right _ _
  rw [← selectedSlots_of_allPresent hall] at hinv ⊢
  rw [exec_recon_ready hshape (decodingMatrix_of_invert henough hinv),
    reconEffect_of_nothingErased (erasedData_of_allPresent hall) (erasedParity_of_allPresent hall)]
  exact answers_respond 0 _

end Sys2Proof.Machine

namespace Sys2Proof.Machine

/-! ### Two runs of `RECON` (R148) -/

theorem answer_inj {s t : State} {q r : RspWord} (h : answer s q = answer t r) : s = t ∧ q = r := by
  obtain ⟨hout, hlast⟩ := List.append_inj' (congrArg State.rspOut h) rfl
  refine ⟨?_, List.head_eq_of_cons_eq hlast⟩
  calc s = { answer s q with rspOut := s.rspOut } := rfl
    _ = { answer t r with rspOut := t.rspOut } := by rw [h, hout]

/-- A command that answers without error leaves the state of its effect. -/
theorem Answers.commandEffect {i : Instr} {s t : State} {p : Bool} {val : Half}
    (h : Answers (exec i s) t p val) : CommandEffect i s t := by
  obtain ⟨r, hexec, herr, -⟩ := h
  obtain ⟨e, hraise, -⟩ | ⟨s', p', val', hans, heff, -⟩ := exec_cases i s
  · obtain ⟨-, rfl⟩ := answer_inj (Host.Outcome.next.inj (hraise.symm.trans hexec))
    exact absurd (by simpa using herr) (errorCode_ne_zero e)
  · obtain ⟨rfl, -⟩ := answer_inj (Host.Outcome.next.inj (hans.symm.trans hexec))
    exact heff

/-- The two states have the same parameters, generator matrix and descriptors; their bytes may differ. -/
structure SameButBytes (s u : State) : Prop where
  cfg : u.cfg = s.cfg
  gen : u.gen = s.gen
  desc : u.desc = s.desc

/-- The two states hold the same bytes where `RECON` may read: in the present slots below N + M, at
offsets below L (R148). -/
def SamePresentBytes (s u : State) : Prop :=
  ∀ (slot : Slot) (off : Half), slot.toNat < numData s + numParity s → isPresent s slot = true →
    off.toNat < shardLen s → readShard u slot off = readShard s slot off

namespace SameButBytes
variable {s u : State} (h : SameButBytes s u)
include h

theorem numData_eq : numData u = numData s := by rw [numData, h.cfg, numData]
theorem numParity_eq : numParity u = numParity s := by rw [numParity, h.cfg, numParity]
theorem shardLen_eq : shardLen u = shardLen s := by rw [shardLen, h.cfg, shardLen]

theorem isPresent_eq : isPresent u = isPresent s := by
  funext slot
  rw [isPresent, h.desc, isPresent]

theorem declaredLen_eq : declaredLen u = declaredLen s := by
  funext slot
  rw [declaredLen, h.desc, declaredLen]

theorem erasedData_eq : erasedData u = erasedData s := by
  rw [erasedData, h.numData_eq, h.isPresent_eq, erasedData]

theorem erasedParity_eq : erasedParity u = erasedParity s := by
  rw [erasedParity, paritySlots, h.numData_eq, h.numParity_eq, h.isPresent_eq, erasedParity, paritySlots]

/-- The decoding-matrix unit sees the parameters, `GEN` and the flags, no byte of the store (R107). -/
theorem decodingMatrix_eq : decodingMatrix u = decodingMatrix s := by
  rw [decodingMatrix, h.numData_eq, h.numParity_eq, h.gen, h.isPresent_eq, decodingMatrix]

theorem reconShapeOk {cnt : Half} (hs : ReconShapeOk cnt s) : ReconShapeOk cnt u := by
  simpa only [ReconShapeOk, h.cfg, h.numData_eq, h.numParity_eq, h.isPresent_eq, h.declaredLen_eq]
    using hs

variable (hbytes : SamePresentBytes s u) (htotal : numData s + numParity s ≤ 256)
  {sel : List Slot} {dec : Mat} (hdec : decodingMatrix s = .ok (sel, dec))
include hbytes htotal hdec

/-- After the data phase every data slot has the same bytes in both runs: an erased one is the same sum
over selected slots, which are present, and a present one is as before (R145). -/
theorem readShard_reconData_eq {slot : Slot} {off : Half} (hslot : slot.toNat < numData s)
    (hoff : off.toNat < shardLen s) :
    readShard (reconData sel dec u) slot off = readShard (reconData sel dec s) slot off := by
  have htotal' : numData u + numParity u ≤ 256 := by rwa [h.numData_eq, h.numParity_eq]
  by_cases herased : slot.toNat ∈ erasedData s
  · rw [readShard_reconData_erased htotal herased hoff, readShard_reconData_erased htotal'
      (by rwa [h.erasedData_eq]) (by rwa [h.shardLen_eq]), h.numData_eq]
    obtain ⟨henough, rfl⟩ := of_decodingMatrix_eq_ok hdec
    refine xorSum_congr fun j hj => ?_
    obtain ⟨i, hi, hsel, hpres⟩ := selEntry_selectedSlots henough hj
    rw [hsel, hbytes (slotOf i) off (by rwa [slotOf_toNat (by omega)]) hpres hoff]
  · have hpres : isPresent s slot = true := by
      rw [mem_erasedData, slotOf_self] at herased
      exact Bool.of_not_eq_false fun hp => herased ⟨hslot, hp⟩
    rw [readShard_reconData_other htotal (fun hin => herased hin.1), readShard_reconData_other htotal'
      (by rw [h.erasedData_eq]; exact fun hin => herased hin.1)]
    exact hbytes slot off (by omega) hpres hoff

/-- The same after the whole command, for data slots. -/
theorem readShard_reconEffect_data_eq (mode : Mode) {slot : Slot} {off : Half}
    (hslot : slot.toNat < numData s) (hoff : off.toNat < shardLen s) :
    readShard (reconEffect mode sel dec u) slot off =
      readShard (reconEffect mode sel dec s) slot off := by
  rw [readShard_reconEffect_data htotal hslot, readShard_reconEffect_data
    (by rwa [h.numData_eq, h.numParity_eq]) (by rwa [h.numData_eq])]
  exact h.readShard_reconData_eq hbytes htotal hdec hslot hoff

/-- An erased parity slot is the same sum over the data slots in both runs (R146). -/
theorem readShard_reconEffect_parity_eq {slot : Slot} {off : Half}
    (hslot : slot.toNat ∈ erasedParity s) (hoff : off.toNat < shardLen s) :
    readShard (reconEffect .all sel dec u) slot off =
      readShard (reconEffect .all sel dec s) slot off := by
  rw [readShard_reconEffect_parity htotal hslot hoff, readShard_reconEffect_parity
    (by rwa [h.numData_eq, h.numParity_eq]) (by rwa [h.erasedParity_eq]) (by rwa [h.shardLen_eq]),
    h.numData_eq, h.gen]
  refine xorSum_congr fun j hj => ?_
  rw [h.readShard_reconEffect_data_eq hbytes htotal hdec .all (by rwa [slotOf_toNat (by omega)]) hoff]

end SameButBytes

/-- Settles O46: the second run has the same checks and decoding matrix, and the refilled slots get the
same bytes. -/
theorem reconNeverReadsErasedSlots : Obligations.ReconNeverReadsErasedSlots := by
  intro mode cnt s u t htotal hcfg hgen hdesc hbytes hanswer
  have hsame : SameButBytes s u := ⟨hcfg, hgen, hdesc⟩
  obtain ⟨hshape, sel, dec, hdec, rfl⟩ := hanswer.commandEffect
  refine ⟨reconEffect mode sel dec u, ?_, by simp, by simp, fun slot off hreq hoff => ?_⟩
  · rw [exec_recon_ready (hsame.reconShapeOk hshape) (hsame.decodingMatrix_eq.trans hdec)]
    exact answers_respond 0 _
  · obtain hdata | ⟨rfl, hparity⟩ := requested_iff.mp hreq
    · exact hsame.readShard_reconEffect_data_eq hbytes htotal hdec mode (mem_erasedData.mp hdata).1 hoff
    · exact hsame.readShard_reconEffect_parity_eq hbytes htotal hdec hparity hoff

end Sys2Proof.Machine

namespace Sys2Proof.Machine

/-! ### Failing commands (R160 to R164) -/

/-- An error's response is its code and 24 zeros (R163). -/
theorem responseWord_error (c : Byte) : responseWord c false 0 = (c ++ (0 : BitVec 24) : RspWord) := by
  rw [responseWord, BitVec.append_assoc, BitVec.append_assoc]
  rfl

/-- How a command with the response `r` has ended (R161, R163): it raised one of its errors, whose code
`r` carries, or the code in `r` is 0. -/
theorem exec_response_cases {i : Instr} {s t : State} {r : RspWord} (hexec : exec i s = .next t)
    (hrsp : t.rspOut = s.rspOut ++ [r]) :
    (∃ e, raise e s = .next t ∧ rspErr r = errorCode e ∧ (errorCode e).toNat ∈ possibleErrors i) ∨
    rspErr r = 0 := by
  obtain ⟨e, hraise, hposs⟩ | ⟨s', p, val, hans, heff, -⟩ := exec_cases i s
  · refine .inl ⟨e, hraise.symm.trans hexec, ?_, hposs⟩
    obtain rfl := Host.Outcome.next.inj (hraise.symm.trans hexec)
    rw [eq_of_answer_rspOut rfl hrsp, rspErr_responseWord]
  · obtain rfl := Host.Outcome.next.inj (hans.symm.trans hexec)
    rw [eq_of_answer_rspOut heff.leavesChannels.rspOut hrsp, rspErr_responseWord]
    exact .inr rfl

/-- Only `raise` gives a nonzero code. -/
theorem exists_raise_of_err {i : Instr} {s t : State} {r : RspWord} (hexec : exec i s = .next t)
    (hrsp : t.rspOut = s.rspOut ++ [r]) (herr : rspErr r ≠ 0) : ∃ e, raise e s = .next t := by
  obtain ⟨e, hraise, -⟩ | hzero := exec_response_cases hexec hrsp
  · exact ⟨e, hraise⟩
  · exact absurd hzero herr

/-- What `raise` leaves, written with the response's own code (R163). -/
theorem eq_of_raise {e : ErrorKind} {s t : State} {r : RspWord} (hraise : raise e s = .next t)
    (hrsp : t.rspOut = s.rspOut ++ [r]) :
    t = { s with errlog := s.errlog ||| BitVec.twoPow 9 (rspErr r).toNat, rspOut := s.rspOut ++ [r] } ∧
      r = (rspErr r ++ (0 : BitVec 24) : RspWord) := by
  obtain rfl := Host.Outcome.next.inj hraise
  obtain rfl := eq_of_answer_rspOut rfl hrsp
  rw [rspErr_responseWord]
  exact ⟨rfl, responseWord_error _⟩

/-- Settles O14: a nonzero code comes from `raise`, which sets the code's bit of `ERRLOG` only. A step on
a word is a command, or raises `IllegalCommandError`, in the state without the word. -/
theorem failingCommandChangesOnlyErrlog : Obligations.FailingCommandChangesOnlyErrlog := by
  refine ⟨fun i s t r hexec hrsp herr => ?_, fun s t w rest r hcmd hstep hrsp herr => ?_⟩
  · obtain ⟨e, hraise⟩ := exists_raise_of_err hexec hrsp herr
    exact eq_of_raise hraise hrsp
  · obtain ⟨i, -, hi⟩ | ⟨_, -, hillegal⟩ := step_command hcmd
    · have hexec : exec i { s with cmdIn := rest } = .next t := hi.symm.trans hstep
      obtain ⟨e, hraise⟩ := exists_raise_of_err hexec hrsp herr
      exact eq_of_raise hraise hrsp
    · exact eq_of_raise (hillegal.symm.trans hstep) hrsp

/-- Settles O22: an error's code is one of the command's, and the code is 0 without an error. -/
theorem errorCodesByCommand : Obligations.ErrorCodesByCommand := by
  intro i s t r hexec hrsp
  obtain ⟨e, -, hcode, hposs⟩ | hzero := exec_response_cases hexec hrsp
  · exact .inr (hcode ▸ hposs)
  · exact .inl hzero

/-- Settles O19: an error writes `ERRLOG` and has a nonzero code; the effect of each read command leaves
the state. -/
theorem readCommandsHaveNoSideEffect : Obligations.ReadCommandsHaveNoSideEffect := by
  intro i s t hexec hread
  obtain ⟨e, rfl⟩ | ⟨s', p, val, rfl, heff⟩ := exec_next_cases hexec
  · exact ⟨_, rfl, fun hzero => absurd (by simpa using hzero) (errorCode_ne_zero e)⟩
  · have hsame : s' = s := by
      obtain ⟨_, rfl⟩ | ⟨_, _, rfl⟩ | ⟨_, _, rfl⟩ | ⟨_, rfl⟩ | ⟨_, _, rfl⟩ | ⟨_, rfl⟩ := hread <;>
        exact heff
    subst hsame
    exact ⟨_, rfl, fun _ => rfl⟩

/-! ### `SequenceError` without an instance or a decoding matrix (R160, R164)

The first check of each command, from the statement that gives the command's checks in order. -/

section
variable {s : State}

theorem fails_exec_decrd (h : s.cfg.valid = false ∨ s.decv = false) (row col : Byte) :
    Fails (exec (.decrd row col) s) s 7 := by
  obtain ⟨-, hmissing, -⟩ := decrdAnswersDecodingEntry row col s
  exact hmissing h

theorem fails_exec_selrd (h : s.cfg.valid = false ∨ s.decv = false) (k : Byte) :
    Fails (exec (.selrd k) s) s 7 := by
  obtain ⟨-, hmissing, -⟩ := selrdAnswersSelectedIndex k s
  exact hmissing h

end

/-- Settles O21: the check comes first in each of the six commands, so the operands do not matter. -/
theorem sequenceErrorComesFirst : Obligations.SequenceErrorComesFirst := by
  refine ⟨fun s hvalid => ⟨fun row col => ?_, ?_, fun row col => fails_exec_decrd (.inl hvalid) row col,
    fun k => fails_exec_selrd (.inl hvalid) k, fun cnt => ?_, fun mode cnt => ?_⟩,
    fun s hdecv => ⟨fun row col => fails_exec_decrd (.inr hdecv) row col,
      fun k => fails_exec_selrd (.inr hdecv) k⟩⟩
  · obtain ⟨-, hsequence, -⟩ := genrdAnswersGeneratorEntry row col s
    exact hsequence hvalid
  · obtain ⟨-, hmkdec⟩ := mkdecDerivesDecodingMatrix
    obtain ⟨hsequence, -⟩ := hmkdec s
    exact hsequence hvalid
  · obtain ⟨-, hsequence, -⟩ := encodeChecksInOrder cnt s
    exact hsequence hvalid
  · obtain ⟨-, hsequence, -⟩ := reconChecksInOrder mode cnt s
    exact hsequence hvalid

end Sys2Proof.Machine

namespace Sys2Proof.Machine

/-! ### The invariant of the machine (R13, R15 to R18, R41) -/

/-- Settles O8: the step on a reset event is `applyReset` in the state without the event. -/
theorem resetEventRestoresResetState : Obligations.ResetEventRestoresResetState := by
  intro s rest hcmd
  refine ⟨s.resets + 1, ?_⟩
  simp only [step, takeEvent, hcmd, applyReset]

/-- Settles O9: nothing presented is no event to take, so the step is `idle`. -/
theorem stepWaitsWhenNothingIsPresented : Obligations.StepWaitsWhenNothingIsPresented := by
  intro s hcmd
  simp only [step, takeEvent, hcmd, idle]

/-- Settles O10: an unlisted slot has its reset descriptor, and the store lists nothing. -/
theorem resetStateHasSpecValues : Obligations.ResetStateHasSpecValues :=
  ⟨rfl, rfl, rfl, rfl, rfl, rfl, rfl, fun _ => ⟨rfl, rfl⟩, fun _ => rfl⟩

/-- Settles O11: nothing is stored, and neither `VALID` nor `DECV` is set. -/
theorem resetSatisfiesInvariant : Obligations.ResetSatisfiesInvariant where
  memWf := Memory.wf_reset
  descWf := Descs.wf_reset
  errlogBit0 := rfl
  cfgInvalid _ := rfl
  cfgLegal := Bool.noConfusion
  genBuilt := Bool.noConfusion
  decBuilt := Bool.noConfusion

/-! ### What keeps the invariant of the machine (R13, R15 to R18, R41) -/

section
variable {s : State} (h : MachineInv s)
include h

/-- The invariant says nothing of the host's channels and the count of resets. -/
theorem MachineInv.withChannels (cmdIn : List HostEvent) (rspOut : List RspWord) (resets : Nat) :
    MachineInv { s with cmdIn := cmdIn, rspOut := rspOut, resets := resets } :=
  ⟨h.memWf, h.descWf, h.errlogBit0, h.cfgInvalid, h.cfgLegal, h.genBuilt, h.decBuilt⟩

theorem MachineInv.answer (r : RspWord) : MachineInv (answer s r) :=
  h.withChannels s.cmdIn (s.rspOut ++ [r]) s.resets

/-- No error has the code 0, so none sets bit 0 of `ERRLOG` (R16). -/
theorem MachineInv.logError (e : ErrorKind) : MachineInv { s with errlog := logError s.errlog e } := by
  refine ⟨h.memWf, h.descWf, ?_, h.cfgInvalid, h.cfgLegal, h.genBuilt, h.decBuilt⟩
  have hcode : (errorCode e == BitVec.ofNat 8 0) = false := beq_eq_false_iff_ne.mpr (errorCode_ne_zero e)
  rw [getLsbD_logError s.errlog e (Nat.zero_le 8), h.errlogBit0, hcode, Bool.or_false]

end

/-- Legal parameters fit the 9-bit registers `N` and `M` (R13). -/
theorem toNat_setWidth_of_legal {n m : Half} (h : LegalParameters n.toNat m.toNat) :
    (n.setWidth 9).toNat = n.toNat ∧ (m.setWidth 9).toNat = m.toNat := by
  obtain ⟨-, hle⟩ := h
  rw [Config.fieldSize] at hle
  rw [BitVec.toNat_setWidth, BitVec.toNat_setWidth]
  exact ⟨Nat.mod_eq_of_lt (by omega), Nat.mod_eq_of_lt (by omega)⟩

theorem Memory.wf_reconEffect {s : State} (h : Memory.wf s.mem) (mode : Mode) (sel : List Slot)
    (dec : Mat) : Memory.wf (reconEffect mode sel dec s).mem := by
  have hdata : Memory.wf (reconData sel dec s).mem := Memory.wf_memWrites h _
  cases mode with
  | all => exact Memory.wf_memWrites hdata _
  | data => exact hdata

theorem Descs.wf_reconEffect {s : State} (h : Descs.wf s.desc) (mode : Mode) (sel : List Slot)
    (dec : Mat) : Descs.wf (reconEffect mode sel dec s).desc := by
  cases mode with
  | all =>
    refine Descs.wf_markPresent (Descs.wf_markPresent ?_ _) _
    rwa [storeShards_desc, reconData_desc]
  | data =>
    refine Descs.wf_markPresent ?_ _
    rwa [reconData_desc]

/-- The effect of every command keeps the invariant: `CONFIG` builds `GEN` from the parameters it has
checked, `MKDEC` and `RECON` take `SEL` and `DEC` from the decoding-matrix unit, and no other command
writes an engine register. -/
theorem CommandEffect.machineInv {i : Instr} {s s' : State} (heff : CommandEffect i s s')
    (h : MachineInv s) : MachineInv s' := by
  cases i with
  | nop | gfadd | gfmul | gfdiv | gfinv | csrrd | genrd | decrd | selrd | shrd | shget =>
    obtain rfl := heff
    exact h
  | config kind n m len =>
    obtain ⟨hlegal, rfl⟩ := heff
    obtain ⟨hn, hm⟩ := toNat_setWidth_of_legal hlegal
    refine ⟨h.memWf, h.descWf, h.errlogBit0, nofun, fun _ => ?_, fun _ => ?_, nofun⟩
    · rwa [numData, numParity, hn, hm]
    · rw [numData, numParity, hn, hm]
  | mkdec =>
    obtain ⟨hvalid, sel, dec, hdec, rfl⟩ := heff
    exact ⟨h.memWf, h.descWf, h.errlogBit0, h.cfgInvalid, h.cfgLegal, h.genBuilt,
      fun _ => ⟨hvalid, isPresent s, hdec⟩⟩
  | shwr slot off val =>
    obtain rfl := heff
    exact ⟨Memory.wf_memWrite h.memWf _ _, h.descWf, h.errlogBit0, h.cfgInvalid, h.cfgLegal, h.genBuilt,
      h.decBuilt⟩
  | shset slot len pres =>
    obtain rfl := heff
    exact ⟨h.memWf, Descs.wf_setDesc h.descWf _ _ _, h.errlogBit0, h.cfgInvalid, h.cfgLegal, h.genBuilt,
      h.decBuilt⟩
  | encode cnt =>
    obtain ⟨-, rfl⟩ := heff
    exact ⟨Memory.wf_storeShards h.memWf _ _, Descs.wf_markPresent h.descWf _, h.errlogBit0,
      h.cfgInvalid, h.cfgLegal, h.genBuilt, h.decBuilt⟩
  | recon mode cnt =>
    obtain ⟨⟨hvalid, -⟩, sel, dec, hdec, rfl⟩ := heff
    have hmem := Memory.wf_reconEffect h.memWf mode sel dec
    have hdesc := Descs.wf_reconEffect h.descWf mode sel dec
    cases mode <;>
      exact ⟨hmem, hdesc, h.errlogBit0, h.cfgInvalid, h.cfgLegal, h.genBuilt,
        fun _ => ⟨hvalid, isPresent s, hdec⟩⟩

/-- Settles O12: a waiting step changes nothing, the reset input brings the reset state, and a command
word either adds an error to the log or has its command's effect, which keeps the invariant. -/
theorem stepKeepsInvariant : Obligations.StepKeepsInvariant := by
  intro s t h hstep
  cases hcmd : s.cmdIn with
  | nil =>
    obtain rfl := Host.Outcome.next.inj ((stepWaitsWhenNothingIsPresented s hcmd).symm.trans hstep)
    exact h
  | cons event rest =>
    cases event with
    | reset =>
      obtain ⟨k, hreset⟩ := resetEventRestoresResetState s rest hcmd
      obtain rfl := Host.Outcome.next.inj (hreset.symm.trans hstep)
      exact resetSatisfiesInvariant.withChannels rest s.rspOut k
    | command w =>
      have htaken := h.withChannels rest s.rspOut s.resets
      obtain ⟨e, hraise⟩ | ⟨i, s', p, val, -, hans, heff⟩ := step_command_cases hcmd
      · obtain rfl := Host.Outcome.next.inj (hraise.symm.trans hstep)
        exact (htaken.logError e).answer _
      · obtain rfl := Host.Outcome.next.inj (hans.symm.trans hstep)
        exact (heff.machineInv htaken).answer _

end Sys2Proof.Machine

namespace Sys2Proof.Machine

/-! ### The laws of the field (R80, R82, R84) -/

/-- A byte has at most one inverse. -/
theorem eq_of_gfMul_eq_one {a q q' : Byte} (h : gfMul a q = 1) (h' : gfMul a q' = 1) : q' = q := by
  calc q' = gfMul (gfMul a q) q' := by rw [h]; simp
    _ = gfMul q (gfMul a q') := by rw [gfMul_comm a q, gfMul_assoc]
    _ = q := by rw [h']; simp

/-- The unit `INV` gives the byte whose product with the input is 1, and no other. -/
theorem gfInv_eq_some_iff {a q : Byte} : gfInv a = some q ↔ gfMul a q = 1 := by
  by_cases ha : a = 0
  · subst ha
    simp
  · obtain ⟨p, hinv, hmul⟩ := exists_gfInv_of_ne_zero ha
    rw [hinv, Option.some_inj]
    exact ⟨fun h => h ▸ hmul, fun h => (eq_of_gfMul_eq_one hmul h).symm⟩

/-- Settles O49: the laws of the ring are those of the sums of bits and of the product; the unit `INV`
gives the one byte with product 1, so inverse and byte change places by commutativity. -/
theorem fieldLaws : Obligations.FieldLaws := by
  refine ⟨fun _ _ => BitVec.xor_comm _ _, BitVec.xor_assoc, gfMul_comm, gfMul_assoc, gfMul_xor, gfMul_one,
    gfMul_zero, fun a b hab => ?_, fun a ha => ?_, gfInv_eq_some_iff.mpr (gfMul_one 1)⟩
  · refine or_iff_not_imp_left.mpr fun ha => ?_
    exact eq_zero_of_gfMul_eq_zero (gfMul_inverseLut ha) hab
  · obtain ⟨q, hinv, hmul⟩ := exists_gfInv_of_ne_zero ha
    exact ⟨q, hinv, hmul, gfInv_eq_some_iff.mpr (gfMul_comm q a ▸ hmul),
      fun q' => eq_of_gfMul_eq_one hmul⟩

theorem gfPow_add (x : Byte) (d e : Nat) : gfPow x (d + e) = gfMul (gfPow x d) (gfPow x e) := by
  obtain ⟨F, _, ⟨φ⟩⟩ := exists_fieldReading
  apply φ.injective
  rw [φ.map_gfMul, φ.map_gfPow, φ.map_gfPow, φ.map_gfPow, pow_add]

/-- `EXP`, its index taken modulo 255, holds the powers of ALPHA for every exponent (R81). -/
theorem expTable_mod (e : Nat) : romRead expTable (e % 255) = some (gfPow Config.alpha e) := by
  rw [expTable_eq_gfPow (Nat.mod_lt e (by omega)), gfPow_alpha_mod]

/-- Settles O51: every byte but 0 is a power of ALPHA, and exponents add; the exponents of a byte and
of its inverse by the tables add up to 255, the order of ALPHA. -/
theorem productsAgreeWithTables : Obligations.ProductsAgreeWithTables := by
  refine ⟨fun a b => ?_, fun a ha => ?_⟩
  · unfold gfMulByTables
    split_ifs with hzero
    · obtain rfl | rfl := hzero <;> simp
    · obtain ⟨ha, hb⟩ := not_or.mp hzero
      obtain ⟨la, hla, hpa⟩ := exists_log_of_ne_zero ha
      obtain ⟨lb, hlb, hpb⟩ := exists_log_of_ne_zero hb
      rw [hla, hlb, ← hpa, ← hpb, ← gfPow_add]
      exact expTable_mod _
  · obtain ⟨l, hl, hp⟩ := exists_log_of_ne_zero ha
    have hproduct : gfMul a (gfPow Config.alpha (255 - l.toNat)) = 1 := by
      rw [← hp, ← gfPow_add, Nat.add_sub_cancel' (by omega), gfPow_alpha_255]
    rw [gfInvByTables, hl, gfInv_eq_some_iff.mpr hproduct]
    exact expTable_mod _

end Sys2Proof.Machine

namespace Sys2Proof.Machine

/-! ### `Invert` on a matrix with an inverse (R106) -/

theorem entry_identityMat {k i j : Nat} (hi : i < k) (hj : j < k) :
    entry (identityMat k) i j = if i = j then 1 else 0 :=
  entry_buildMat hi hj _

namespace FieldReading
variable {F : Type} [Field F] (φ : FieldReading F)

theorem matMul_eq_identityMat_iff {k : Nat} {A B : Mat} :
    matMul k k k A B = identityMat k ↔ φ.mat k k A * φ.mat k k B = 1 := by
  rw [← φ.mat_matMul, ← φ.mat_identityMat]
  exact φ.buildMat_eq_iff

theorem entry_eq_of_mat_eq {r c : Nat} {A B : Mat} (h : φ.mat r c A = φ.mat r c B) {i j : Nat}
    (hi : i < r) (hj : j < c) : entry A i j = entry B i j :=
  φ.injective (congrFun (congrFun h ⟨i, hi⟩) ⟨j, hj⟩)

end FieldReading

/-- Settles O54: a left inverse makes the determinant nonzero, so `Invert` returns; what it returns is a
right inverse, and the left inverse is equal to it. -/
theorem invertSucceedsOnInvertible : Obligations.InvertSucceedsOnInvertible := by
  intro k A B hBA
  obtain ⟨F, _, ⟨φ⟩⟩ := exists_fieldReading
  rw [φ.matMul_eq_identityMat_iff] at hBA
  obtain ⟨C, hC⟩ := φ.exists_invert_of_det_ne_zero (Matrix.det_ne_zero_of_left_inverse hBA)
  obtain ⟨-, hAC⟩ := invertGivesTwoSidedInverse k A C hC
  have heq := left_inv_eq_right_inv hBA (φ.matMul_eq_identityMat_iff.mp hAC)
  exact ⟨C, hC, fun i hi j hj => φ.entry_eq_of_mat_eq heq.symm hi hj⟩

/-- What `Invert` returns is the list of its own `k` x `k` entries, nothing beside them. -/
theorem eq_buildMat_of_invert {k : Nat} {A C : Mat} (h : invert k A = some C) :
    C = buildMat k k (entry C) := by
  unfold invert at h
  split at h
  · exact nomatch h
  next W hW =>
  obtain rfl := Option.some.inj h
  rw [rightHalf]
  exact buildMat_congr fun i hi j hj => (entry_buildMat hi hj fun i j => entry W i (k + j)).symm

/-- A left inverse that lists its `k` x `k` entries is what `Invert` returns. -/
theorem invert_eq_buildMat {k : Nat} {A : Mat} {f : Nat → Nat → Byte}
    (h : matMul k k k (buildMat k k f) A = identityMat k) : invert k A = some (buildMat k k f) := by
  obtain ⟨C, hC, hentries⟩ := invertSucceedsOnInvertible k A _ h
  rw [hC, eq_buildMat_of_invert hC]
  exact congrArg some (buildMat_congr fun i hi j hj => (hentries i hi j hj).trans (entry_buildMat hi hj f))

theorem matMul_identityMat_self (k : Nat) :
    matMul k k k (identityMat k) (identityMat k) = identityMat k := by
  obtain ⟨F, _, ⟨φ⟩⟩ := exists_fieldReading
  rw [φ.matMul_eq_identityMat_iff, φ.mat_identityMat, one_mul]

theorem invert_identityMat (k : Nat) : invert k (identityMat k) = some (identityMat k) :=
  invert_eq_buildMat (matMul_identityMat_self k)

/-- Settles O55: the identity and `[q]` are left inverses; with the one entry 0 there is no pivot. -/
theorem invertOfIdentityAndOfOneByOne : Obligations.InvertOfIdentityAndOfOneByOne := by
  refine ⟨invert_identityMat, fun a q hinv => ?_, rfl⟩
  refine invert_eq_buildMat (f := fun _ _ => q) ?_
  have hproduct : matMul 1 1 1 [[q]] [[a]] = [[0#8 ^^^ gfMul q a]] := rfl
  rw [gfMul_comm, gfInv_eq_some_iff.mp hinv, BitVec.zero_xor] at hproduct
  exact hproduct

/-! ### The shape and the top of the generator matrix (R17, R102 to R104) -/

theorem matRow_append_left {A : Mat} {i : Nat} (B : Mat) (hi : i < A.length) :
    matRow (A ++ B) i = matRow A i := by
  rw [matRow, matRow, List.getElem?_append_left hi]

theorem matRow_append_right {A : Mat} {i : Nat} (B : Mat) (hi : A.length ≤ i) :
    matRow (A ++ B) i = matRow B (i - A.length) := by
  rw [matRow, matRow, List.getElem?_append_right hi]

theorem HasShape.append {r m c : Nat} {A B : Mat} (hA : HasShape r c A) (hB : HasShape m c B) :
    HasShape (r + m) c (A ++ B) where
  rows := by rw [List.length_append, hA.rows, hB.rows]
  cols i hi := by
    obtain hir | hri := Nat.lt_or_ge i r
    · rw [matRow_append_left B (hA.rows ▸ hir), hA.cols i hir]
    · rw [matRow_append_right B (hA.rows ▸ hri), hA.rows, hB.cols _ (by omega)]

theorem LegalParameters.n_le {n m : Nat} (h : LegalParameters n m) : n ≤ 256 :=
  le_trans (Nat.le_add_right n m) h.2

theorem hasShape_generator (kind : Kind) {n m : Nat} (h : LegalParameters n m) :
    HasShape (n + m) n (generator kind n m) := by
  cases kind with
  | vandermonde =>
    obtain ⟨T, -, hgen⟩ := generator_vandermonde (m := m) h.n_le
    rw [hgen]
    exact hasShape_buildMat _ _ _
  | cauchy => exact (hasShape_buildMat n n _).append (hasShape_buildMat m n _)

/-- For KIND = 0 the top is the top square times its inverse; for KIND = 1 it is the identity as built. -/
theorem topIdentity_generator (kind : Kind) {n m : Nat} (h : LegalParameters n m) :
    TopIdentity n (generator kind n m) := by
  cases kind with
  | vandermonde =>
    obtain ⟨T, hinv, hgen⟩ := generator_vandermonde (m := m) h.n_le
    intro i hi j hj
    calc entry (generator .vandermonde n m) i j
        = gfDot n (entry (vand (n + m) n) i) (fun t => entry T t j) := by
          rw [hgen, entry_matMul (by omega) hj]
      _ = gfDot n (entry (vand n n) i) (fun t => entry T t j) :=
          gfDot_congr (fun t ht => by rw [entry_vand (by omega) ht, entry_vand hi ht]) fun _ _ => rfl
      _ = entry (identityMat n) i j := by
          rw [← matMul_eq_identityMat_comm.mp hinv, entry_matMul hi hj]
      _ = if i = j then 1 else 0 := entry_identityMat hi hj
  | cauchy =>
    obtain ⟨-, htop, -⟩ := cauchyGeneratorEntries n m h
    exact htop

/-- Settles O58: the shape and the top, each kind by kind. -/
theorem generatorIsSystematic : Obligations.GeneratorIsSystematic := by
  intro kind n m hlegal
  obtain ⟨hrows, hcols⟩ := hasShape_generator kind hlegal
  exact ⟨hrows, hcols, topIdentity_generator kind hlegal⟩

/-! ### Any N rows of the generator matrix are inverted: the MDS property

KIND = 0: the selected rows are a Vandermonde matrix of different elements times an invertible matrix.
KIND = 1: a column of coefficients that gives zero with N different rows makes a polynomial of degree below
N that vanishes at N different elements, so the polynomial and the column are zero. -/

theorem selEntry_eq_getElem {sel : List Slot} {i : Nat} (hi : i < sel.length) : selEntry sel i = sel[i] := by
  rw [selEntry, List.getElem?_eq_getElem hi, Option.getD_some]

theorem selEntry_mem {sel : List Slot} {i : Nat} (hi : i < sel.length) : selEntry sel i ∈ sel := by
  rw [selEntry_eq_getElem hi]
  exact List.getElem_mem hi

theorem entry_selectedRows {n i j : Nat} (hi : i < n) (hj : j < n) (gen : Mat) (sel : List Slot) :
    entry (selectedRows n gen sel) i j = entry gen (selEntry sel i).toNat j :=
  entry_buildMat hi hj _

/-- The selected rows with a column of coefficients, row by row. -/
theorem gfDot_selectedRows {n i : Nat} (hi : i < n) (gen : Mat) (sel : List Slot) (v : Nat → Byte) :
    gfDot n (entry (selectedRows n gen sel) i) v = gfDot n (entry gen (selEntry sel i).toNat) v :=
  gfDot_congr (fun _ hj => entry_selectedRows hi hj gen sel) fun _ _ => rfl

namespace FieldReading
variable {F : Type} [Field F] (φ : FieldReading F)

/-- The field has characteristic 2: a sum is a difference. -/
theorem map_xor_eq_sub (a b : Byte) : φ.toFun (a ^^^ b) = φ.toFun a - φ.toFun b := by
  rw [eq_sub_iff_add_eq, ← φ.map_xor, BitVec.xor_assoc, BitVec.xor_self, BitVec.xor_zero]

/-- The field elements of the selected slots are different. -/
theorem injective_selEntry {n : Nat} {sel : List Slot} (hlen : sel.length = n) (hnodup : sel.Nodup) :
    Function.Injective fun i : Fin n => φ.toFun (selEntry sel i) := by
  intro i j hij
  have hsel := φ.injective hij
  rw [selEntry_eq_getElem (by omega), selEntry_eq_getElem (by omega), hnodup.getElem_inj_iff] at hsel
  exact Fin.ext hsel

/-- The field elements of the data slots. -/
def dataNode (n : Nat) (j : Fin n) : F := φ.toFun (slotOf j)

theorem injective_dataNode {n : Nat} (hn : n ≤ 256) : Function.Injective (φ.dataNode n) :=
  fun _ _ hij => Fin.ext (eq_of_ofNat_eq (by omega) (by omega) (φ.injective hij))

/-- The polynomial of degree below `n` whose values are those of a column `v` of coefficients with the
rows of the Cauchy generator matrix, each up to a factor that is not 0. -/
noncomputable def cauchyPolynomial (n : Nat) (v : Nat → Byte) : Polynomial F :=
  Lagrange.interpolate Finset.univ (φ.dataNode n)
    fun j => φ.toFun (v j) / Lagrange.nodalWeight Finset.univ (φ.dataNode n) j

section
variable {n : Nat} (hn : n ≤ 256) (v : Nat → Byte)
include hn

theorem degree_cauchyPolynomial_lt : (φ.cauchyPolynomial n v).degree < n := by
  have hdegree := Lagrange.degree_interpolate_lt (s := Finset.univ) (v := φ.dataNode n)
    (fun j => φ.toFun (v j) / Lagrange.nodalWeight Finset.univ (φ.dataNode n) j)
    (φ.injective_dataNode hn).injOn
  rwa [Finset.card_univ, Fintype.card_fin] at hdegree

theorem nodalWeight_dataNode_ne_zero (j : Fin n) :
    Lagrange.nodalWeight Finset.univ (φ.dataNode n) j ≠ 0 :=
  Lagrange.nodalWeight_ne_zero (φ.injective_dataNode hn).injOn (Finset.mem_univ j)

theorem eval_cauchyPolynomial_eq_zero_iff (j : Fin n) :
    (φ.cauchyPolynomial n v).eval (φ.dataNode n j) = 0 ↔ v j = 0 := by
  rw [cauchyPolynomial, Lagrange.eval_interpolate_at_node _ (φ.injective_dataNode hn).injOn
    (Finset.mem_univ j), div_eq_zero_iff, or_iff_left (φ.nodalWeight_dataNode_ne_zero hn j), ← φ.map_zero]
  exact φ.injective.eq_iff

/-- Where the row consists of the reciprocals of the differences to the data nodes, the value is the
row's sum times the product of the differences. -/
theorem eval_cauchyPolynomial_of_reciprocals {x : Byte} {row : Nat → Byte}
    (hrow : ∀ j < n, gfMul (row j) (x ^^^ slotOf j) = 1) (hsum : gfDot n row v = 0) :
    (φ.cauchyPolynomial n v).eval (φ.toFun x) = 0 := by
  have hmul (j : Fin n) : φ.toFun (row j) * (φ.toFun x - φ.dataNode n j) = 1 := by
    rw [dataNode, ← φ.map_xor_eq_sub, ← φ.map_gfMul, hrow j j.isLt, φ.map_one]
  have hne (j : Fin n) : φ.toFun x ≠ φ.dataNode n j := by
    intro heq
    have hone := hmul j
    rw [heq, sub_self, mul_zero] at hone
    exact zero_ne_one hone
  have hterm (j : Fin n) : Lagrange.nodalWeight Finset.univ (φ.dataNode n) j *
      (φ.toFun x - φ.dataNode n j)⁻¹ * (φ.toFun (v j) / Lagrange.nodalWeight Finset.univ (φ.dataNode n) j) =
      φ.toFun (gfMul (row j) (v j)) := by
    have hw := φ.nodalWeight_dataNode_ne_zero hn j
    rw [← eq_inv_of_mul_eq_one_left (hmul j), φ.map_gfMul]
    field_simp
  rw [cauchyPolynomial, Lagrange.eval_interpolate_not_at_node _ fun j _ => hne j,
    Finset.sum_congr rfl fun j _ => hterm j, ← φ.map_xorSum n fun j => gfMul (row j) (v j)]
  rw [show xorSum n _ = 0 from hsum, φ.map_zero, mul_zero]

end

/-- A column that gives zero with the row of a slot in the Cauchy generator matrix: its polynomial vanishes
at the slot. The row is a row of the identity or a row of reciprocals. -/
theorem eval_cauchyPolynomial_of_gfDot {n m : Nat} (hlegal : LegalParameters n m) {slot : Slot}
    (hslot : slot.toNat < n + m) {v : Nat → Byte}
    (hsum : gfDot n (entry (generator .cauchy n m) slot.toNat) v = 0) :
    (φ.cauchyPolynomial n v).eval (φ.toFun slot) = 0 := by
  obtain ⟨-, htop, hreciprocal⟩ := cauchyGeneratorEntries n m hlegal
  have hn := hlegal.n_le
  obtain hdata | hparity := Nat.lt_or_ge slot.toNat n
  · rw [gfDot_congr (htop _ hdata) fun _ _ => rfl, gfDot_unit hdata] at hsum
    have hzero := (φ.eval_cauchyPolynomial_eq_zero_iff hn v ⟨slot.toNat, hdata⟩).mpr hsum
    rwa [dataNode, slotOf_self] at hzero
  · refine φ.eval_cauchyPolynomial_of_reciprocals hn v (fun j hj => ?_) hsum
    have hentry := hreciprocal (slot.toNat - n) (by omega) j hj
    rwa [Nat.add_sub_cancel' hparity, show BitVec.ofNat 8 slot.toNat = slot from slotOf_self slot]
      at hentry

end FieldReading

section
variable {n m : Nat} {sel : List Slot} (hlegal : LegalParameters n m) (hlen : sel.length = n)
  (hnodup : sel.Nodup) (hlt : ∀ slot ∈ sel, slot.toNat < n + m)
include hlegal hlen hnodup hlt

theorem exists_invert_cauchy_rows :
    ∃ D, invert n (selectedRows n (generator .cauchy n m) sel) = some D := by
  obtain ⟨F, _, ⟨φ⟩⟩ := exists_fieldReading
  have hn := hlegal.n_le
  refine exists_invert_of_kernel fun v hv j hj => ?_
  have hpoly : φ.cauchyPolynomial n v = 0 := by
    refine Polynomial.eq_zero_of_degree_lt_of_eval_index_eq_zero (s := Finset.univ)
      (φ.injective_selEntry hlen hnodup).injOn ?_ fun i _ => ?_
    · rw [Finset.card_univ, Fintype.card_fin]
      exact φ.degree_cauchyPolynomial_lt hn v
    · refine φ.eval_cauchyPolynomial_of_gfDot hlegal (hlt _ (selEntry_mem (by omega))) ?_
      rw [← gfDot_selectedRows i.isLt]
      exact hv i i.isLt
  refine (φ.eval_cauchyPolynomial_eq_zero_iff hn v ⟨j, hj⟩).mp ?_
  rw [hpoly, Polynomial.eval_zero]

/-- The selected rows of `Vand` are a Vandermonde matrix again, times the inverse of the top square. -/
theorem exists_invert_vandermonde_rows :
    ∃ D, invert n (selectedRows n (generator .vandermonde n m) sel) = some D := by
  obtain ⟨F, _, ⟨φ⟩⟩ := exists_fieldReading
  obtain ⟨T, hinv, hgen⟩ := generator_vandermonde (m := m) hlegal.n_le
  have hT := Matrix.det_ne_zero_of_right_inverse (φ.matMul_eq_identityMat_iff.mp hinv)
  have hrows : φ.mat n n (selectedRows n (generator .vandermonde n m) sel) =
      Matrix.vandermonde (fun i : Fin n => φ.toFun (selEntry sel i)) * φ.mat n n T := by
    ext i j
    have hmem : selEntry sel i ∈ sel := selEntry_mem (by omega)
    rw [φ.mat_apply, entry_selectedRows i.isLt j.isLt, hgen, entry_matMul (hlt _ hmem) j.isLt, gfDot,
      φ.map_xorSum, Matrix.mul_apply]
    refine Finset.sum_congr rfl fun t _ => ?_
    rw [φ.map_gfMul, entry_vand (hlt _ hmem) t.isLt, φ.map_gfPow, Matrix.vandermonde_apply, φ.mat_apply]
    exact congrArg (φ.toFun · ^ _ * _) (slotOf_self _)
  refine φ.exists_invert_of_det_ne_zero ?_
  rw [hrows, Matrix.det_mul]
  exact mul_ne_zero (Matrix.det_vandermonde_ne_zero_iff.mpr (φ.injective_selEntry hlen hnodup)) hT

end

/-- Settles O59, kind by kind. -/
theorem generatorIsMds : Obligations.GeneratorIsMds := by
  intro kind n m sel hlegal hlen hnodup hlt
  cases kind with
  | vandermonde => exact exists_invert_vandermonde_rows hlegal hlen hnodup hlt
  | cauchy => exact exists_invert_cauchy_rows hlegal hlen hnodup hlt

end Sys2Proof.Machine

namespace Sys2Proof.Machine

/-! ### The decoding-matrix unit (R107) -/

/-- What the unit has found when it answers: at least N present slots, the first N of them, and the inverse
of their rows. -/
theorem of_decMat_eq_ok {n m : Nat} {gen : Mat} {pres : Slot → Bool} {sel : List Slot} {dec : Mat}
    (h : decMat n m gen pres = .ok (sel, dec)) :
    n ≤ (presentSlots (n + m) pres).length ∧ sel = (presentSlots (n + m) pres).take n ∧
      invert n (selectedRows n gen sel) = some dec := by
  simp only [decMat] at h
  split_ifs at h with hfew
  split at h
  · exact nomatch h
  next D hD =>
  obtain ⟨rfl, rfl⟩ := Prod.mk.inj (Except.ok.inj h)
  exact ⟨Nat.not_lt.mp hfew, rfl, hD⟩

theorem length_presentSlots_le (n : Nat) (pres : Slot → Bool) : (presentSlots n pres).length ≤ n := by
  calc (presentSlots n pres).length ≤ ((List.range n).map slotOf).length := List.length_filter_le _ _
    _ = n := by rw [List.length_map, List.length_range]

theorem slotOf_mem_presentSlots {n d : Nat} (hd : d < n) {pres : Slot → Bool}
    (hpres : pres (slotOf d) = true) : slotOf d ∈ presentSlots n pres :=
  List.mem_filter.mpr ⟨List.mem_map_of_mem (List.mem_range.mpr hd), hpres⟩

/-- The present data slots come first, and there are at most N of them: all are selected. -/
theorem presentSlots_prefix_take (n m : Nat) (pres : Slot → Bool) :
    presentSlots n pres <+: (presentSlots (n + m) pres).take n := by
  refine List.prefix_take_iff.mpr ⟨?_, length_presentSlots_le n pres⟩
  rw [presentSlots, presentSlots, List.range_add, List.map_append, List.filter_append]
  exact List.prefix_append _ _

/-- With a two-sided inverse, the row of `DEC` at a selected data slot is a row of the identity: the
selected row is one. -/
theorem entry_dec_of_selected {n : Nat} {gen dec : Mat} {sel : List Slot} (hn : n ≤ 256)
    (htop : TopIdentity n gen) (hinv : invert n (selectedRows n gen sel) = some dec) {i d : Nat} (hi : i < n)
    (hd : d < n) (hsel : selEntry sel i = slotOf d) {j : Nat} (hj : j < n) :
    entry dec d j = if i = j then 1 else 0 := by
  obtain ⟨-, hright⟩ := invertGivesTwoSidedInverse n _ _ hinv
  have hrow (t : Nat) (ht : t < n) : entry (selectedRows n gen sel) i t = if d = t then 1 else 0 := by
    rw [entry_selectedRows hi ht, hsel, slotOf_toNat (by omega), htop d hd t ht]
  calc entry dec d j
      = gfDot n (entry (selectedRows n gen sel) i) (fun t => entry dec t j) := by
        rw [gfDot_congr hrow fun _ _ => rfl, gfDot_unit hd]
    _ = entry (identityMat n) i j := by rw [← hright, entry_matMul hi hj]
    _ = if i = j then 1 else 0 := entry_identityMat hi hj

/-- The first N rows of a matrix with the identity on top, selected in order, are the identity. -/
theorem selectedRows_dataSlots {n : Nat} {gen : Mat} (hn : n ≤ 256) (htop : TopIdentity n gen) :
    selectedRows n gen ((List.range n).map slotOf) = identityMat n := by
  refine buildMat_congr fun i hi j hj => ?_
  have hsel : selEntry ((List.range n).map slotOf) i = slotOf i := by simp [selEntry, hi]
  rw [hsel, slotOf_toNat (by omega), htop i hi j hj]

/-- Settles O60: the selection begins with the present data slots; with all of them present it is these
and no other, and the identity is its own inverse. -/
theorem decodingMatrixKeepsPresentData : Obligations.DecodingMatrixKeepsPresentData := by
  intro n m gen pres sel dec hlegal htop hok
  obtain ⟨henough, hsel, hinv⟩ := of_decMat_eq_ok hok
  have hprefix : presentSlots n pres <+: sel := hsel ▸ presentSlots_prefix_take n m pres
  refine ⟨fun d hd hpres => hprefix.subset (slotOf_mem_presentSlots hd hpres),
    fun i hi d hd hseld j hj => ?_, fun hall => ?_⟩
  · rw [entry_dec_of_selected hlegal.n_le htop hinv hi hd hseld hj]
    exact if_congr eq_comm rfl rfl
  · have hdata : presentSlots n pres = (List.range n).map slotOf := by
      refine List.filter_eq_self.mpr fun slot hslot => ?_
      obtain ⟨d, hd, rfl⟩ := List.mem_map.mp hslot
      exact hall d (List.mem_range.mp hd)
    have hlen : (presentSlots n pres).length = sel.length := by
      rw [hdata, List.length_map, List.length_range, hsel, List.length_take, Nat.min_eq_left henough]
    obtain rfl : (List.range n).map slotOf = sel := hdata ▸ hprefix.eq_of_length hlen
    rw [selectedRows_dataSlots hlegal.n_le htop, invert_identityMat] at hinv
    exact ⟨rfl, (Option.some.inj hinv).symm⟩

/-! ### Decoding succeeds with N present slots (law 4) -/

section
variable {s : State}

theorem length_selectedSlots (henough : numData s ≤ (presentIndices s).length) :
    (selectedSlots s).length = numData s := by
  rw [selectedSlots, List.length_map, List.length_take, Nat.min_eq_left henough]

/-- The selected slots are those of different indices below N + M. -/
theorem exists_index_of_mem_selectedSlots {slot : Slot} (h : slot ∈ selectedSlots s) :
    ∃ i < numData s + numParity s, slot = slotOf i := by
  obtain ⟨i, hi, rfl⟩ := List.mem_map.mp h
  have hrange := List.mem_of_mem_filter (List.mem_of_mem_take hi)
  exact ⟨i, List.mem_range.mp hrange, rfl⟩

theorem nodup_selectedSlots (htotal : numData s + numParity s ≤ 256) : (selectedSlots s).Nodup := by
  have hnodup : ((presentIndices s).take (numData s)).Nodup :=
    (List.nodup_range.filter _).sublist (List.take_sublist _ _)
  refine hnodup.map_on fun i hi j hj hij => ?_
  have hlt {k : Nat} (hk : k ∈ (presentIndices s).take (numData s)) : k < 256 :=
    (List.mem_range.mp (List.mem_of_mem_filter (List.mem_of_mem_take hk))).trans_le htotal
  exact eq_of_ofNat_eq (hlt hi) (hlt hj) hij

/-- With the generator matrix of legal parameters and N present slots the selection is inverted. -/
theorem exists_invert_selectedRows {kind : Kind} (hlegal : LegalParameters (numData s) (numParity s))
    (hgen : s.gen = generator kind (numData s) (numParity s))
    (henough : numData s ≤ (presentIndices s).length) :
    ∃ dec, invert (numData s) (selectedRows (numData s) s.gen (selectedSlots s)) = some dec := by
  have htotal : numData s + numParity s ≤ 256 := hlegal.2
  rw [hgen]
  refine generatorIsMds kind _ _ _ hlegal (length_selectedSlots henough) (nodup_selectedSlots htotal)
    fun slot hslot => ?_
  obtain ⟨i, hi, rfl⟩ := exists_index_of_mem_selectedSlots hslot
  rwa [slotOf_toNat (by omega)]

end

/-- Settles O47: the invariant gives the generator matrix, and N present slots give rows that are
inverted. -/
theorem decodingSucceedsWithEnoughShards : Obligations.DecodingSucceedsWithEnoughShards := by
  intro s h hvalid henough
  obtain ⟨dec, hinv⟩ := exists_invert_selectedRows (h.cfgLegal hvalid) (h.genBuilt hvalid) henough
  have hdec := decodingMatrix_of_invert henough hinv
  refine ⟨⟨dec, ?_⟩, fun mode cnt hshape => ⟨reconEffect mode (selectedSlots s) dec s, ?_⟩⟩
  · obtain ⟨-, hmkdec⟩ := mkdecDerivesDecodingMatrix
    obtain ⟨-, -, -, hsuccess⟩ := hmkdec s
    exact hsuccess dec hvalid henough hinv
  · rw [exec_recon_ready hshape hdec]
    exact answers_respond 0 _

/-! ### Encoding twice (law 5) -/

section
variable {s : State} (htotal : numData s + numParity s ≤ 256)
include htotal

/-- `ENCODE` leaves the data bytes. -/
theorem readShard_encodeEffect_data {j : Nat} (hj : j < numData s) (off : Half) :
    readShard (encodeEffect s) (slotOf j) off = readShard s (slotOf j) off :=
  readShard_encodeEffect_other htotal (.inl (by rwa [slotOf_toNat (by omega)]))

/-- The second `ENCODE` has the same checks to pass. -/
theorem EncodeReady.encodeEffect {cnt : Half} (h : EncodeReady cnt s) :
    EncodeReady cnt (encodeEffect s) := by
  obtain ⟨hvalid, hcnt, hlen⟩ := h
  refine ⟨hvalid, hcnt, fun j hj => ?_⟩
  have hj : j < numData s := hj
  have hdata : ¬(numData s ≤ (slotOf j).toNat ∧ (slotOf j).toNat < numData s + numParity s) := by
    rw [slotOf_toNat (by omega)]
    omega
  obtain ⟨-, hsame⟩ := flags_of_descOf ((descOf_encodeEffect htotal (slotOf j)).trans (if_neg hdata))
  exact hsame.trans (hlen j hj)

theorem readShard_encodeEffect_twice (slot : Slot) (off : Half) :
    readShard (encodeEffect (encodeEffect s)) slot off = readShard (encodeEffect s) slot off := by
  by_cases hparity : numData s ≤ slot.toNat ∧ slot.toNat < numData s + numParity s ∧ off.toNat < shardLen s
  · obtain ⟨hlow, hhigh, hoff⟩ := hparity
    rw [readShard_encodeEffect_parity (s := encodeEffect s) htotal hlow hhigh hoff,
      readShard_encodeEffect_parity htotal hlow hhigh hoff]
    exact xorSum_congr fun j hj => by rw [readShard_encodeEffect_data htotal hj, encodeEffect_gen]
  · refine readShard_encodeEffect_other (s := encodeEffect s) htotal ?_
    change slot.toNat < numData s ∨ numData s + numParity s ≤ slot.toNat ∨ shardLen s ≤ off.toNat
    omega

theorem descOf_encodeEffect_twice (slot : Slot) :
    descOf (encodeEffect (encodeEffect s)).desc slot = descOf (encodeEffect s).desc slot := by
  rw [descOf_encodeEffect (s := encodeEffect s) htotal]
  split_ifs with hparity
  · exact ((descOf_encodeEffect htotal slot).trans (if_pos hparity)).symm
  · rfl

end

/-- Settles O41: the second run computes the same sums from the same data bytes. -/
theorem reencodingIsIdempotent : Obligations.ReencodingIsIdempotent := by
  intro cnt s t hready htotal hanswer
  obtain ⟨-, rfl⟩ := hanswer.commandEffect
  refine ⟨encodeEffect (encodeEffect s), ?_, readShard_encodeEffect_twice htotal, fun slot =>
    flags_of_descOf (descOf_encodeEffect_twice htotal slot)⟩
  rw [exec_encode_ready (hready.encodeEffect htotal)]
  exact answers_respond 0 _

/-! ### Decoding restores what encoding left (laws 2 and 6) -/

/-- Every slot below N + M holds the sum that its row of the generator matrix gives from the data slots. -/
def IsCodeword (n m : Nat) (gen : Mat) (byte : Slot → Byte) : Prop :=
  ∀ slot : Slot, slot.toNat < n + m → byte slot = gfDot n (entry gen slot.toNat) (fun j => byte (slotOf j))

/-- `ENCODE` leaves a codeword at every offset below L. -/
theorem isCodeword_encodeEffect {s : State} (htotal : numData s + numParity s ≤ 256)
    (htop : TopIdentity (numData s) s.gen) {off : Half} (hoff : off.toNat < shardLen s) :
    IsCodeword (numData s) (numParity s) s.gen (fun slot => readShard (encodeEffect s) slot off) := by
  intro slot hslot
  obtain hdata | hparity := Nat.lt_or_ge slot.toNat (numData s)
  · rw [gfDot_congr (htop _ hdata) fun _ _ => rfl, gfDot_unit hdata, slotOf_self]
  · beta_reduce
    rw [readShard_encodeEffect_parity htotal hparity hslot hoff]
    exact gfDot_congr (fun _ _ => rfl) fun j hj => (readShard_encodeEffect_data htotal hj off).symm

/-- A matrix undoes the one it is the left inverse of. -/
theorem gfDot_gfDot_of_matMul {k : Nat} {A B : Mat} (h : matMul k k k B A = identityMat k) {d : Nat}
    (hd : d < k) (x : Nat → Byte) :
    gfDot k (entry B d) (fun i => gfDot k (entry A i) x) = x d := by
  obtain ⟨F, _, ⟨φ⟩⟩ := exists_fieldReading
  apply φ.injective
  have hinner : (fun i : Fin k => φ.toFun (gfDot k (entry A i) x)) =
      (φ.mat k k A).mulVec fun j => φ.toFun (x j) := funext fun i => φ.gfDot_eq_mulVec A x i
  rw [φ.gfDot_eq_mulVec B _ ⟨d, hd⟩, hinner, Matrix.mulVec_mulVec, φ.matMul_eq_identityMat_iff.mp h,
    Matrix.one_mulVec]

/-- The decoding matrix gives the data bytes of a codeword back from its selected bytes. -/
theorem gfDot_dec_of_isCodeword {n m : Nat} {gen dec : Mat} {sel : List Slot} {byte : Slot → Byte}
    (hcode : IsCodeword n m gen byte) (hinv : invert n (selectedRows n gen sel) = some dec)
    (hsel : ∀ j < n, (selEntry sel j).toNat < n + m) {d : Nat} (hd : d < n) :
    gfDot n (entry dec d) (fun j => byte (selEntry sel j)) = byte (slotOf d) := by
  rw [← gfDot_gfDot_of_matMul (matMul_of_invert hinv) hd fun j => byte (slotOf j)]
  refine gfDot_congr (fun _ _ => rfl) fun j hj => ?_
  rw [hcode _ (hsel j hj), gfDot_selectedRows hj]

/-- The present slots of `u` hold a codeword at the offset `off` below L, and a decoding matrix is found:
what the erased slots hold does not matter (law 2). -/
structure HoldsCodeword (u : State) (dec : Mat) (byte : Slot → Byte) (off : Half) : Prop where
  total : numData u + numParity u ≤ 256
  codeword : IsCodeword (numData u) (numParity u) u.gen byte
  decodes : decodingMatrix u = .ok (selectedSlots u, dec)
  present : ∀ slot : Slot, slot.toNat < numData u + numParity u → isPresent u slot = true →
    readShard u slot off = byte slot
  off_lt : off.toNat < shardLen u

namespace HoldsCodeword
variable {u : State} {dec : Mat} {byte : Slot → Byte} {off : Half} (h : HoldsCodeword u dec byte off)
  (mode : Mode) {slot : Slot}
include h

/-- The selected slots are present. -/
theorem readShard_selected {j : Nat} (hj : j < numData u) :
    (selEntry (selectedSlots u) j).toNat < numData u + numParity u ∧
      readShard u (selEntry (selectedSlots u) j) off = byte (selEntry (selectedSlots u) j) := by
  obtain ⟨henough, -⟩ := of_decodingMatrix_eq_ok h.decodes
  obtain ⟨i, hi, hsel, hpres⟩ := selEntry_selectedSlots henough hj
  have htotal := h.total
  have hlt : (slotOf i).toNat < numData u + numParity u := by rwa [slotOf_toNat (by omega)]
  rw [hsel]
  exact ⟨hlt, h.present _ hlt hpres⟩

/-- `RECON` does not write a present slot. -/
theorem readShard_reconEffect_present (hlt : slot.toNat < numData u + numParity u)
    (hpres : isPresent u slot = true) :
    readShard (reconEffect mode (selectedSlots u) dec u) slot off = byte slot := by
  rw [readShard_reconEffect_other h.total, h.present slot hlt hpres]
  rintro ⟨⟨herased, -⟩, -⟩
  exact Bool.noConfusion (hpres.symm.trans herased)

/-- An erased data slot is decoded from the selected slots (R145). -/
theorem readShard_reconEffect_data (hlt : slot.toNat < numData u) :
    readShard (reconEffect mode (selectedSlots u) dec u) slot off = byte slot := by
  cases hpres : isPresent u slot with
  | true => exact h.readShard_reconEffect_present mode (Nat.lt_add_right _ hlt) hpres
  | false =>
    obtain ⟨-, -, hinv⟩ := of_decMat_eq_ok h.decodes
    have herased : slot.toNat ∈ erasedData u := mem_erasedData.mpr ⟨hlt, by rwa [slotOf_self]⟩
    calc readShard (reconEffect mode (selectedSlots u) dec u) slot off
        = gfDot (numData u) (entry dec slot.toNat)
            (fun j => readShard u (selEntry (selectedSlots u) j) off) := by
          rw [Machine.readShard_reconEffect_data h.total hlt,
            readShard_reconData_erased h.total herased h.off_lt, gfDot]
      _ = gfDot (numData u) (entry dec slot.toNat) (fun j => byte (selEntry (selectedSlots u) j)) :=
          gfDot_congr (fun _ _ => rfl) fun j hj => (h.readShard_selected hj).2
      _ = byte slot := by
          rw [gfDot_dec_of_isCodeword h.codeword hinv (fun j hj => (h.readShard_selected hj).1) hlt,
            slotOf_self]

/-- An erased parity slot is encoded from the data slots as they are afterwards (R146). -/
theorem readShard_reconEffect_all (hlt : slot.toNat < numData u + numParity u) :
    readShard (reconEffect .all (selectedSlots u) dec u) slot off = byte slot := by
  obtain hdata | hparity := Nat.lt_or_ge slot.toNat (numData u)
  · exact h.readShard_reconEffect_data .all hdata
  cases hpres : isPresent u slot with
  | true => exact h.readShard_reconEffect_present .all hlt hpres
  | false =>
    have htotal := h.total
    have herased : slot.toNat ∈ erasedParity u :=
      mem_erasedParity.mpr ⟨⟨hparity, hlt⟩, by rwa [slotOf_self]⟩
    rw [readShard_reconEffect_parity htotal herased h.off_lt, h.codeword slot hlt]
    exact gfDot_congr (fun _ _ => rfl) fun j hj =>
      h.readShard_reconEffect_data .all (by rwa [slotOf_toNat (by omega)])

end HoldsCodeword

/-- After `RECON` no slot is erased that it is asked to refill (R146). -/
theorem isPresent_reconEffect {u : State} (htotal : numData u + numParity u ≤ 256) {mode : Mode}
    (sel : List Slot) (dec : Mat) {slot : Slot}
    (hslot : slot.toNat < numData u ∨ (mode = .all ∧ slot.toNat < numData u + numParity u)) :
    isPresent (reconEffect mode sel dec u) slot = true := by
  have hdesc := descOf_reconEffect (mode := mode) (sel := sel) (dec := dec) htotal slot
  cases hpres : isPresent u slot with
  | true =>
    have hnot : ¬Requested mode u slot := fun hreq => Bool.noConfusion (hpres.symm.trans hreq.1)
    rw [requested_iff] at hnot
    exact (flags_of_descOf (hdesc.trans (if_neg hnot))).1.trans hpres
  | false =>
    have hreq : Requested mode u slot := ⟨hpres, hslot⟩
    rw [requested_iff] at hreq
    exact (flags_of_descOf (hdesc.trans (if_pos hreq))).1

theorem parameters_eq_of_cfg_eq {s u : State} (h : u.cfg = s.cfg) :
    numData u = numData s ∧ numParity u = numParity s ∧ shardLen u = shardLen s :=
  ⟨congrArg (·.n.toNat) h, congrArg (·.m.toNat) h, congrArg (·.l.toNat) h⟩

section
variable {s u : State} (hlegal : LegalParameters (numData s) (numParity s))
  (hgen : s.gen = generator s.cfg.kind (numData s) (numParity s)) (hcfg : u.cfg = s.cfg)
  (hgenu : u.gen = s.gen)
include hlegal hgen hcfg hgenu

/-- Any state of the instance with N present slots has a decoding matrix. -/
theorem exists_decodingMatrix_of_sameInstance (henough : numData s ≤ (presentIndices u).length) :
    ∃ dec, decodingMatrix u = .ok (selectedSlots u, dec) := by
  obtain ⟨hn, hm, -⟩ := parameters_eq_of_cfg_eq hcfg
  rw [← hn] at henough
  rw [← hn, ← hm] at hlegal
  rw [← hgenu, ← hn, ← hm] at hgen
  obtain ⟨dec, hinv⟩ := exists_invert_selectedRows hlegal hgen henough
  exact ⟨dec, decodingMatrix_of_invert henough hinv⟩

/-- Present slots with the bytes that `ENCODE` left hold a codeword. -/
theorem holdsCodeword_of_encodeEffect {dec : Mat} (hdec : decodingMatrix u = .ok (selectedSlots u, dec))
    (hbytes : ∀ (slot : Slot) (off : Half), slot.toNat < numData s + numParity s →
      isPresent u slot = true → off.toNat < shardLen s →
        readShard u slot off = readShard (encodeEffect s) slot off)
    {off : Half} (hoff : off.toNat < shardLen s) :
    HoldsCodeword u dec (fun slot => readShard (encodeEffect s) slot off) off := by
  obtain ⟨hn, hm, hl⟩ := parameters_eq_of_cfg_eq hcfg
  have htop : TopIdentity (numData s) s.gen := hgen ▸ topIdentity_generator s.cfg.kind hlegal
  refine ⟨?_, ?_, hdec, fun slot hlt hpres => hbytes slot off (by rwa [hn, hm] at hlt) hpres hoff,
    by rwa [hl]⟩
  · rw [hn, hm]
    exact hlegal.2
  · rw [hn, hm, hgenu]
    exact isCodeword_encodeEffect hlegal.2 htop hoff

end

/-- Settles O48: `ENCODE` leaves a codeword at every offset below L, the present slots of `u` hold it, and
by the MDS property a decoding matrix is found. -/
theorem reconRestoresWhatEncodeLeft : Obligations.ReconRestoresWhatEncodeLeft := by
  intro mode cnt total s t u hinv hready hencode hcfg hgen hshape hbytes henough
  obtain ⟨-, rfl⟩ := hencode.commandEffect
  obtain ⟨hvalid, -⟩ := hready
  have hlegal := hinv.cfgLegal hvalid
  have hbuilt := hinv.genBuilt hvalid
  rw [encodeEffect_cfg] at hcfg
  rw [encodeEffect_gen] at hgen
  obtain ⟨dec, hdec⟩ := exists_decodingMatrix_of_sameInstance hlegal hbuilt hcfg hgen henough
  refine ⟨reconEffect mode (selectedSlots u) dec u, ?_, fun slot hslot => ?_⟩
  · rw [exec_recon_ready hshape hdec]
    exact answers_respond 0 _
  obtain ⟨hn, hm, -⟩ := parameters_eq_of_cfg_eq hcfg
  rw [← hn, ← hm] at hslot
  have htotal : numData u + numParity u ≤ 256 := by
    rw [hn, hm]
    exact hlegal.2
  refine ⟨isPresent_reconEffect htotal _ dec hslot, fun off hoff => ?_⟩
  have hholds := holdsCodeword_of_encodeEffect hlegal hbuilt hcfg hgen hdec hbytes hoff
  obtain hlt | ⟨rfl, hlt⟩ := hslot
  · exact hholds.readShard_reconEffect_data mode hlt
  · exact hholds.readShard_reconEffect_all hlt

end Sys2Proof.Machine

namespace Sys2Proof.Machine

/-! ### `CONFIG`, and which commands write (R12, R110) -/

/-- Settles O18: an error writes `ERRLOG` only, and the effects that write the store, the descriptors, or
`SEL` and `DEC` are those of the commands listed. -/
theorem onlyTheListedCommandsWrite : Obligations.OnlyTheListedCommandsWrite := by
  intro i s t hexec
  obtain ⟨e, rfl⟩ | ⟨s', p, val, rfl, heff⟩ := exec_next_cases hexec
  · exact ⟨fun _ _ _ => rfl, fun _ _ _ => rfl, fun _ _ => ⟨rfl, rfl⟩⟩
  cases i with
  | nop | gfadd | gfmul | gfdiv | gfinv | csrrd | genrd | decrd | selrd | shrd | shget =>
    obtain rfl := heff
    exact ⟨fun _ _ _ => rfl, fun _ _ _ => rfl, fun _ _ => ⟨rfl, rfl⟩⟩
  | config kind n m len =>
    obtain ⟨-, rfl⟩ := heff
    exact ⟨fun _ _ _ => rfl, fun _ _ _ => rfl, fun _ _ => ⟨rfl, rfl⟩⟩
  | mkdec =>
    obtain ⟨-, sel, dec, -, rfl⟩ := heff
    exact ⟨fun _ _ _ => rfl, fun _ _ _ => rfl, fun hno => absurd rfl hno⟩
  | shwr slot off val =>
    obtain rfl := heff
    exact ⟨fun hno => absurd rfl (hno slot off val), fun _ _ _ => rfl, fun _ _ => ⟨rfl, rfl⟩⟩
  | shset slot len pres =>
    obtain rfl := heff
    exact ⟨fun _ _ _ => rfl, fun hno => absurd rfl (hno slot len pres), fun _ _ => ⟨rfl, rfl⟩⟩
  | encode cnt =>
    obtain ⟨-, rfl⟩ := heff
    exact ⟨fun _ hno => absurd rfl (hno cnt), fun _ hno => absurd rfl (hno cnt), fun _ _ => ⟨rfl, rfl⟩⟩
  | recon mode cnt =>
    exact ⟨fun _ _ hno => absurd rfl (hno mode cnt), fun _ _ hno => absurd rfl (hno mode cnt),
      fun _ hno => absurd rfl (hno mode cnt)⟩

theorem badParameters_eq_true_iff (n m : Half) : badParameters n m = true ↔
    n.toNat < 1 ∨ 256 < n.toNat ∨ 256 < n.toNat + m.toNat := by
  simp only [badParameters, Bool.or_eq_true, decide_eq_true_iff, or_assoc]
  rw [Config.fieldSize]

/-- Settles O28: the check of the parameters in its two cases. -/
theorem configBuildsInstanceOrParameterError : Obligations.ConfigBuildsInstanceOrParameterError := by
  refine fun kind n m len s => ⟨decode_encode (.config kind n m len), fun hn hle => ?_, fun hbad => ?_⟩
  · have hlegal : LegalParameters n.toNat m.toNat := ⟨hn, hle⟩
    obtain ⟨hn9, hm9⟩ := toNat_setWidth_of_legal hlegal
    refine ⟨⟨true, kind, n.setWidth 9, m.setWidth 9, len⟩, rfl, rfl, hn9, hm9, rfl, ?_⟩
    rw [exec, execConfig, (badParameters_iff n m).mpr hlegal]
    exact answers_respond 0 _
  · rw [exec, execConfig, if_pos ((badParameters_eq_true_iff n m).mpr hbad)]
    exact fails_raise .parameter s

end Sys2Proof.Machine
